-- ==== Sys2Proof/Word.lean ====
section
/-! DEFINITION. The values the machine computes with and the characters its lines and bus addresses are made of.
The hardware has no machine word (00_scope.md R8, R11; 20_memory.md R100): a register or a cell holds one whole
integer, an instruction is a text line, and a bus address is a string of the characters '0' and '1'. Register and cell values are
Lean's `Int`; a finite `XLEN` narrows them by `Sys2Proof.Machine.normValue` (R12), never by the type. -/

namespace Sys2Proof

/-- A text line, a token of one, or a bus address: a finite sequence of characters (30_encoding.md R130, 00_scope.md
R14). A list, so that the kernel can take it apart. -/
abbrev Line := List Char

/-- The operand of CACHE once decoded: 0 disables, 1 enables, 2 flushes (43_system.md R200). No other mode decodes
(30_encoding.md R139), so no other mode is a value of this type. -/
inductive CacheMode where
  | disable
  | enable
  | flush
  deriving DecidableEq, Repr

/-- The reasons of a recoverable error, S1 to S7 in this order (60_exceptions.md R211). -/
inductive SkipReason where
  /-- S1: nothing is left of the line after trimming. -/
  | emptyLine
  /-- S2: the opcode token is none of the eleven mnemonics. -/
  | unknownOpcode
  /-- S3: the operand count differs from the opcode's. -/
  | operandCount
  /-- S4: a register operand token is malformed. -/
  | badRegister
  /-- S5: a register index at or above NREG, or JAL with NREG below 8. -/
  | registerOutOfRange
  /-- S6: an immediate, offset, target or mode token is no decimal integer. -/
  | badInteger
  /-- S7: a CACHE mode other than 0, 1, 2. -/
  | reservedCacheMode
  deriving DecidableEq, Repr

end Sys2Proof
end

