-- ==== Sys2Proof/Config.lean ====
section
/-! DEFINITION. The construction arguments of 00_scope.md R9, fixed for the life of one instance. They are plain data,
so every statement about a state holds for every legal choice of them. The spec leaves no value free, so this file
holds no opaque constant. -/

namespace Sys2Proof

/-- `EVICT` (00_scope.md R9; 20_memory.md R92, R93). -/
inductive EvictPolicy where
  | lfu
  | lru
  deriving DecidableEq, Repr

/-- `WPOL` (00_scope.md R9; 20_memory.md R96). -/
inductive WritePolicy where
  | writeThrough
  | writeBack
  deriving DecidableEq, Repr

/-- `XLEN`: unbounded, or two's complement of a finite width (00_scope.md R12). -/
inductive Xlen where
  | inf
  | finite (w : Nat)
  deriving DecidableEq, Repr

/-- `ON_FATAL` (60_exceptions.md R216). -/
inductive OnFatal where
  | stop
  | skip
  deriving DecidableEq, Repr

/-- The construction arguments (00_scope.md R9). `BW` is not a field: it is computed from `memSize` and `bwOverride`
(20_memory.md R71), see `Sys2Proof.Machine.addressWidth`. -/
structure Config where
  /-- `NREG`, the number of general registers. -/
  nreg : Nat
  /-- `MEM_SIZE`, the number of Memory Bus cells. -/
  memSize : Nat
  /-- `BW_OVERRIDE`, absent or an explicit address width. -/
  bwOverride : Option Nat
  /-- `CAP`, the Cache's capacity in entries. -/
  cap : Nat
  /-- `EVICT`, the eviction policy. -/
  evict : EvictPolicy
  /-- `WPOL`, the write policy. -/
  wpol : WritePolicy
  /-- `PC_STEP`, the base advance of the pc. -/
  pcStep : Nat
  /-- `XLEN`, the width of register and cell values. -/
  xlen : Xlen
  /-- `ON_FATAL`, what an InvalidAddress does to the run. -/
  onFatal : OnFatal
  /-- `CACHE_EN_RESET`, the cache-enable flag at construction. -/
  cacheEnReset : Bool
  deriving DecidableEq, Repr

/-- The instance `State.reset` constructs. NREG, BW_OVERRIDE, PC_STEP, XLEN, ON_FATAL and CACHE_EN_RESET are the values
00_scope.md R9 gives for this hardware. MEM_SIZE, CAP, EVICT and WPOL have no default in the spec: the four values
here are a DESIGN CHOICE (assumption log 2, unsafe), and no statement about the machine rests on them. -/
def Config.named : Config where
  nreg := 9
  memSize := 256
  bwOverride := none
  cap := 2
  evict := .lru
  wpol := .writeThrough
  pcStep := 1
  xlen := .inf
  onFatal := .stop
  cacheEnReset := false

end Sys2Proof
end

