-- ==== Sys2Proof/Syntax.lean ====
section
/-! DEFINITION. The decoded instruction: a closed type with eleven constructors, one per row of the opcode table
(30_encoding.md R142, R146). -/

namespace Sys2Proof

/-- The instruction set (00_scope.md R2). Register operands are indices, integer operands keep the exact value of
their token (30_encoding.md R138). -/
inductive Instr where
  | add (d s t : Nat)
  | addi (d s : Nat) (imm : Int)
  | sub (d s t : Nat)
  | slt (d s t : Nat)
  | bne (s t : Nat) (offset : Int)
  | j (target : Int)
  | jal (target : Int)
  | lw (s t : Nat) (offset : Int)
  | sw (s t : Nat) (offset : Int)
  | cache (mode : CacheMode)
  | halt
  deriving DecidableEq, Repr

end Sys2Proof
end

