-- ==== Sys2Proof/WellFormed.lean ====
section
/-! DEFINITION. Which instruction terms the decoder can yield: register indices below NREG (30_encoding.md R136, R146),
and JAL only where register 7 exists (R140). -/

namespace Sys2Proof

/-- Well-formedness of an instruction for a register file of `nreg` registers (30_encoding.md R146). -/
def Instr.wf (nreg : Nat) : Instr → Bool
  | .add d s t => d < nreg && s < nreg && t < nreg
  | .addi d s _ => d < nreg && s < nreg
  | .sub d s t => d < nreg && s < nreg && t < nreg
  | .slt d s t => d < nreg && s < nreg && t < nreg
  | .bne s t _ => s < nreg && t < nreg
  | .j _ => true
  | .jal _ => 7 < nreg
  | .lw s t _ => s < nreg && t < nreg
  | .sw s t _ => s < nreg && t < nreg
  | .cache _ => true
  | .halt => true

end Sys2Proof
end

