-- ==== Sys2Proof/Decode.lean ====
section
/-! DEFINITION. The decoder of 30_encoding.md R131 to R146, total on every line, and after it the printer of canonical
spellings (R145). The hardware has no binary instruction word (00_scope.md R8), so the encoding tables are token
layouts (R135). -/

namespace Sys2Proof

/-! ### Characters and tokens -/

/-- Whitespace: U+0020 and U+0009 to U+000D (30_encoding.md R131). -/
def isSpace (c : Char) : Bool := c.toNat == 0x20 || (0x09 ≤ c.toNat && c.toNat ≤ 0x0D)

/-- Trim: leading and trailing whitespace removed (30_encoding.md R131). -/
def trim (l : Line) : Line := ((l.dropWhile isSpace).reverse.dropWhile isSpace).reverse

/-- Split at every comma, empty tokens kept (30_encoding.md R132). -/
def splitComma : Line → List Line
  | [] => [[]]
  | c :: cs =>
    if c = ',' then [] :: splitComma cs
    else
      match splitComma cs with
      | [] => [[c]]
      | t :: ts => (c :: t) :: ts

/-- The trimmed tokens `t0, t1, ..., tn` of a line (30_encoding.md R131, R132). -/
def tokens (l : Line) : List Line := (splitComma (trim l)).map trim

/-- ASCII upper case of one character; every other character is itself (30_encoding.md R133). -/
def asciiUpper (c : Char) : Char := if 97 ≤ c.toNat && c.toNat ≤ 122 then Char.ofNat (c.toNat - 32) else c

/-! ### Opcodes -/

/-- The opcode map's eleven rows (30_encoding.md R142). -/
inductive Opcode where
  | add
  | addi
  | sub
  | slt
  | bne
  | j
  | jal
  | lw
  | sw
  | cache
  | halt
  deriving DecidableEq, Repr

/-- The opcode token of each row, in upper case (30_encoding.md R133, R142). -/
def Opcode.spelling : Opcode → Line
  | .add => ['A', 'D', 'D']
  | .addi => ['A', 'D', 'D', 'I']
  | .sub => ['S', 'U', 'B']
  | .slt => ['S', 'L', 'T']
  | .bne => ['B', 'N', 'E']
  | .j => ['J']
  | .jal => ['J', 'A', 'L']
  | .lw => ['L', 'W']
  | .sw => ['S', 'W']
  | .cache => ['C', 'A', 'C', 'H', 'E']
  | .halt => ['H', 'A', 'L', 'T']

/-- The required operand count (30_encoding.md R134). -/
def Opcode.operandCount : Opcode → Nat
  | .add => 3
  | .addi => 3
  | .sub => 3
  | .slt => 3
  | .bne => 3
  | .j => 1
  | .jal => 1
  | .lw => 3
  | .sw => 3
  | .cache => 1
  | .halt => 0

/-- All rows of the opcode map (30_encoding.md R142). -/
def opcodeTable : List Opcode := [.add, .addi, .sub, .slt, .bne, .j, .jal, .lw, .sw, .cache, .halt]

/-- Opcode match with ASCII letter case ignored (30_encoding.md R133). -/
def opcodeOf (t : Line) : Option Opcode := opcodeTable.find? (fun op => op.spelling == t.map asciiUpper)

/-! ### Operand tokens -/

/-- A decimal digit `0` to `9` (30_encoding.md R144). -/
def isDigit (c : Char) : Bool := 48 ≤ c.toNat && c.toNat ≤ 57

/-- One or more decimal digits and nothing else. -/
def isDigits (ds : Line) : Bool := !ds.isEmpty && ds.all isDigit

/-- The decimal value of a digit string, leading zeros allowed (30_encoding.md R136, R137). -/
def digitsValue (ds : Line) : Nat := ds.foldl (fun n c => 10 * n + (c.toNat - 48)) 0

/-- A register token: `R` or `r`, then digits; the index below `nreg` (30_encoding.md R136). -/
def parseReg (nreg : Nat) : Line → Except SkipReason Nat
  | [] => .error .badRegister
  | c :: ds =>
    if (c = 'R' ∨ c = 'r') ∧ isDigits ds = true then
      if digitsValue ds < nreg then .ok (digitsValue ds) else .error .registerOutOfRange
    else .error .badRegister

/-- An unsigned digit string with its sign already taken off. -/
def parseDigits (negative : Bool) (ds : Line) : Except SkipReason Int :=
  if isDigits ds = true then .ok (if negative then -(digitsValue ds : Int) else (digitsValue ds : Int))
  else .error .badInteger

/-- An integer token: an optional sign, then digits, of any magnitude (30_encoding.md R137). -/
def parseInt : Line → Except SkipReason Int
  | [] => .error .badInteger
  | c :: ds =>
    if c = '-' then parseDigits true ds
    else if c = '+' then parseDigits false ds
    else parseDigits false (c :: ds)

/-- CACHE mode range (30_encoding.md R139). -/
def cacheModeOf (v : Int) : Except SkipReason CacheMode :=
  if v = 0 then .ok .disable
  else if v = 1 then .ok .enable
  else if v = 2 then .ok .flush
  else .error .reservedCacheMode

/-! ### Formats: the operand count first, then the tokens from left to right (30_encoding.md R134, R135, R141) -/

/-- Format R3: three registers. -/
def decodeThreeRegs (nreg : Nat) (mk : Nat → Nat → Nat → Instr) : List Line → Except SkipReason Instr
  | [a, b, c] => do
    let x ← parseReg nreg a
    let y ← parseReg nreg b
    let z ← parseReg nreg c
    .ok (mk x y z)
  | _ => .error .operandCount

/-- Formats RI and RRO: two registers and an integer. -/
def decodeTwoRegsInt (nreg : Nat) (mk : Nat → Nat → Int → Instr) : List Line → Except SkipReason Instr
  | [a, b, c] => do
    let x ← parseReg nreg a
    let y ← parseReg nreg b
    let v ← parseInt c
    .ok (mk x y v)
  | _ => .error .operandCount

/-- Formats T1 and M1: one integer, then what the opcode makes of it. -/
def decodeOneInt (mk : Int → Except SkipReason Instr) : List Line → Except SkipReason Instr
  | [a] => do
    let v ← parseInt a
    mk v
  | _ => .error .operandCount

/-- Format Z0: no operands. -/
def decodeNoOperand (i : Instr) : List Line → Except SkipReason Instr
  | [] => .ok i
  | _ => .error .operandCount

/-- The operands of each opcode (30_encoding.md R135), with the CACHE mode range (R139) and JAL's link register
(R140) checked last (R141). -/
def decodeOperands (nreg : Nat) : Opcode → List Line → Except SkipReason Instr
  | .add, ops => decodeThreeRegs nreg .add ops
  | .addi, ops => decodeTwoRegsInt nreg .addi ops
  | .sub, ops => decodeThreeRegs nreg .sub ops
  | .slt, ops => decodeThreeRegs nreg .slt ops
  | .bne, ops => decodeTwoRegsInt nreg .bne ops
  | .j, ops => decodeOneInt (fun v => .ok (.j v)) ops
  | .jal, ops => decodeOneInt (fun v => if 7 < nreg then .ok (.jal v) else .error .registerOutOfRange) ops
  | .lw, ops => decodeTwoRegsInt nreg .lw ops
  | .sw, ops => decodeTwoRegsInt nreg .sw ops
  | .cache, ops => decodeOneInt (fun v => (cacheModeOf v).map .cache) ops
  | .halt, ops => decodeNoOperand .halt ops

/-- The tokens of a non-empty line: opcode, then operands (30_encoding.md R146). The empty list is no result of
`tokens`. -/
def decodeTokens (nreg : Nat) : List Line → Except SkipReason Instr
  | [] => .error .unknownOpcode
  | t0 :: ops =>
    match opcodeOf t0 with
    | none => .error .unknownOpcode
    | some op => decodeOperands nreg op ops

/-- The decoder (30_encoding.md R146): total on every line, an instruction or the reason of a skip. -/
def decode (nreg : Nat) (l : Line) : Except SkipReason Instr :=
  if trim l = [] then .error .emptyLine else decodeTokens nreg (tokens l)

/-! ### The printer of canonical spellings (30_encoding.md R145) -/

/-- The digit character of a number below ten. -/
def digitChar (d : Nat) : Char := Char.ofNat (48 + d)

/-- Decimal digits of `n` before `acc`, for a `fuel` of at least as many steps as `n` has digits. -/
def natDigitsFrom : Nat → Nat → Line → Line
  | 0, _, acc => acc
  | fuel + 1, n, acc =>
    if n < 10 then digitChar n :: acc else natDigitsFrom fuel (n / 10) (digitChar (n % 10) :: acc)

/-- Decimal without leading zeros. -/
def natDigits (n : Nat) : Line := natDigitsFrom (n + 1) n []

/-- A register as `R` and its index. -/
def regToken (k : Nat) : Line := 'R' :: natDigits k

/-- An integer with a leading `-` when negative and no `+`. -/
def intToken : Int → Line
  | .ofNat n => natDigits n
  | .negSucc n => '-' :: natDigits (n + 1)

/-- The mode's number (43_system.md R200). -/
def cacheModeToken : CacheMode → Line
  | .disable => ['0']
  | .enable => ['1']
  | .flush => ['2']

/-- The row of the opcode map an instruction belongs to. -/
def Instr.opcode : Instr → Opcode
  | .add _ _ _ => .add
  | .addi _ _ _ => .addi
  | .sub _ _ _ => .sub
  | .slt _ _ _ => .slt
  | .bne _ _ _ => .bne
  | .j _ => .j
  | .jal _ => .jal
  | .lw _ _ _ => .lw
  | .sw _ _ _ => .sw
  | .cache _ => .cache
  | .halt => .halt

/-- The operand tokens in the order of 30_encoding.md R135. -/
def Instr.operandTokens : Instr → List Line
  | .add d s t => [regToken d, regToken s, regToken t]
  | .addi d s imm => [regToken d, regToken s, intToken imm]
  | .sub d s t => [regToken d, regToken s, regToken t]
  | .slt d s t => [regToken d, regToken s, regToken t]
  | .bne s t offset => [regToken s, regToken t, intToken offset]
  | .j target => [intToken target]
  | .jal target => [intToken target]
  | .lw s t offset => [regToken s, regToken t, intToken offset]
  | .sw s t offset => [regToken s, regToken t, intToken offset]
  | .cache mode => [cacheModeToken mode]
  | .halt => []

/-- Tokens joined by commas, no spaces. -/
def joinComma : List Line → Line
  | [] => []
  | [t] => t
  | t :: u :: ts => t ++ ',' :: joinComma (u :: ts)

/-- The canonical spelling of an instruction (30_encoding.md R145). -/
def encode (i : Instr) : Line := joinComma (i.opcode.spelling :: i.operandTokens)

/-! ### The host's numbering of a line's bits (assumption log 8) -/

/-- `count` characters read from a number, eight bits each, the first character in the lowest eight bits. -/
def lineOfBytes : Nat → Nat → Line
  | 0, _ => []
  | count + 1, w => Char.ofNat (w % 256) :: lineOfBytes count (w / 256)

/-- The line an instruction of `nbits` bits spells (DESIGN CHOICE, assumption log 8: the spec has no binary word). -/
def lineOfWord (nbits w : Nat) : Line := lineOfBytes ((nbits + 7) / 8) w

/-- What the decoder reads from that line, with the register file of `Config.named`. -/
def decodeTableWord (nbits w : Nat) : Option Instr :=
  match decode Config.named.nreg (lineOfWord nbits w) with
  | .ok i => some i
  | .error _ => none

end Sys2Proof
end

