-- ==== Sys2Proof/Machine/Params.lean ====
section
/-! DEFINITION. What the construction arguments determine: the normalisation of values (00_scope.md R12), the address
width (20_memory.md R71) and which arguments construction accepts (70_reset_and_hazards.md R260). -/

namespace Sys2Proof.Machine

/-- `norm(v)`: the identity with `XLEN = INF`, the two's-complement wrap to `w` bits otherwise (00_scope.md R12). The
powers are natural numbers cast to integers, and `%` is the non-negative remainder by a positive divisor (R11). -/
def normValue (c : Config) (v : Int) : Int :=
  match c.xlen with
  | .inf => v
  | .finite w => (v + ((2 ^ (w - 1) : Nat) : Int)) % ((2 ^ w : Nat) : Int) - ((2 ^ (w - 1) : Nat) : Int)

/-- `ceil(log2(n))`, with `ceil(log2(1)) = 0` (20_memory.md R71). -/
def ceilLog2 (n : Nat) : Nat := if n ≤ 1 then 0 else Nat.log2 (n - 1) + 1

/-- `BW`, the one authoritative address width (20_memory.md R71). -/
def addressWidth (c : Config) : Nat :=
  match c.bwOverride with
  | some w => w
  | none => max 8 (ceilLog2 c.memSize)

/-- `XLEN` is INF or at least 2 (00_scope.md R9). -/
def legalXlen : Xlen → Bool
  | .inf => true
  | .finite w => 2 ≤ w

/-- The construction arguments construction accepts (70_reset_and_hazards.md R260, with `BW >= 1` from the table of
00_scope.md R9, assumption log 15). The enumerated arguments are legal by their types. -/
def legal (c : Config) : Bool :=
  1 ≤ c.nreg && 1 ≤ c.cap && 1 ≤ c.memSize && 1 ≤ addressWidth c && c.memSize ≤ 2 ^ addressWidth c &&
    1 ≤ c.pcStep && legalXlen c.xlen

end Sys2Proof.Machine
end

