-- ==== Sys2Proof/Machine/State.lean ====
section
/-! DEFINITION. The state of one instance (10_state.md R30 to R43, R250 of 70_reset_and_hazards.md), as plain data, and
the state after construction. -/

namespace Sys2Proof.Machine

/-- A Cache key: a placeholder's `Empty(i)`, distinct from every string (20_memory.md R82), or an opaque string, for
the engine the rendered bus address (20_memory.md R83). -/
inductive CacheKey where
  | empty (i : Nat)
  | addr (k : Line)
  deriving DecidableEq, Repr

/-- One entry of the Cache's table (20_memory.md R80). The empty-sentinel is `none` (R81). -/
structure CacheEntry where
  key : CacheKey
  value : Option Int
  freq : Nat
  dirty : Bool
  deriving DecidableEq, Repr

/-- The Cache's state: the table in insertion order and, under LRU, the recency order, least recently used first
(20_memory.md R80). Under LFU there is no recency order and the list is empty (assumption log 12). -/
structure Cache where
  table : List CacheEntry
  recency : List CacheKey
  deriving DecidableEq, Repr

/-- The placeholder entry `Empty(i)` (20_memory.md R82). -/
def placeholder (i : Nat) : CacheEntry where
  key := .empty i
  value := none
  freq := 0
  dirty := false

/-- The keys `Empty(0)` to `Empty(cap - 1)` in that order (20_memory.md R95). -/
def placeholderKeys (cap : Nat) : List CacheKey := (List.range cap).map .empty

/-- The flushed state: `CAP` placeholders, and under LRU the recency order in the same sequence (20_memory.md R95). -/
def flushedCache (c : Config) : Cache where
  table := (List.range c.cap).map placeholder
  recency :=
    match c.evict with
    | .lru => placeholderKeys c.cap
    | .lfu => []

/-- The Memory Bus cells that do not hold `unlistedCell`, as (address, value) pairs in rising order of address. The
host's byte cells do not fit: a cell holds one whole integer (20_memory.md R70, R100; assumption log 10). -/
abbrev Memory := List (Nat × Int)

/-- What a cell that no pair lists holds: "default zero" (20_memory.md R70). -/
def unlistedCell : Int := 0

/-- The canonical form, from a lower bound of the addresses on: addresses strictly rising, no pair that holds what an
unlisted cell holds. -/
def Memory.wfFrom : Nat → Memory → Bool
  | _, [] => true
  | lo, (a, v) :: m => lo ≤ a && v != unlistedCell && Memory.wfFrom (a + 1) m

/-- The canonical form of the cells: equal memories are equal lists. -/
def Memory.wf (m : Memory) : Bool := Memory.wfFrom 0 m

/-- The fatal-tier errors with the information each records (60_exceptions.md R214). -/
inductive FatalError where
  /-- F1, raised by LW and SW: the pc of the instruction and the integer address. -/
  | invalidAddress (pc : Nat) (addr : Int)
  /-- F2, raised by a taken BNE, J and JAL: the pc of the instruction and the computed next pc. -/
  | negativePc (pc : Nat) (target : Int)
  deriving DecidableEq, Repr

/-- The run status `RS` (10_state.md R38). -/
inductive RunStatus where
  | idle
  | running
  | halted
  | completed
  | faulted (e : FatalError)
  deriving DecidableEq, Repr

/-- The state of one instance (10_state.md R43). The construction arguments and the program are parameters of the
spec's step; they stand here because the host's step takes nothing else (assumption log 1, 4). No step writes
either. -/
structure State where
  /-- The construction arguments (00_scope.md R9). -/
  cfg : Config
  /-- The instruction memory `P`, one text line per index (10_state.md R42). -/
  program : List Line
  /-- The general registers `x[0]` to `x[NREG-1]` (10_state.md R30). -/
  regs : List Int
  /-- The program counter, an index into `program` (10_state.md R44). -/
  pc : Nat
  /-- The cache-enable flag `CE` (10_state.md R36). -/
  ce : Bool
  /-- `STAT.instr` (10_state.md R37). -/
  statInstr : Nat
  /-- `STAT.hits` (10_state.md R37). -/
  statHits : Nat
  /-- `STAT.misses` (10_state.md R37). -/
  statMisses : Nat
  /-- The run status `RS` (10_state.md R38). -/
  rs : RunStatus
  /-- The Cache (10_state.md R40). -/
  cache : Cache
  /-- The Memory Bus cells (10_state.md R41). -/
  mem : Memory
  deriving DecidableEq, Repr

/-- Why a step answers no next state. No instruction's meaning answers one: a fatal-tier error of the spec is a next
state whose run status is `faulted` (10_state.md R53). -/
inductive Fault where
  /-- Raised by `step` alone, when the run status is not `running`: the spec's step requires `RS = Running` (10_state.md
  R53) and takes no step from an ended run (60_exceptions.md R218). Safe: the machine is stuck until the host calls
  `run` (assumption log 5). -/
  | notRunning
  deriving DecidableEq, Repr

/-- Why an instruction has no meaning. -/
inductive Refusal where
  /-- For an arm of `exec` without a meaning; none is left, so nothing raises it. Safe. -/
  | notModelled (mnemonic : String)
  deriving DecidableEq, Repr

/-- What fetch and decode find at the pc (10_state.md R45, R46). -/
inductive Fetched where
  /-- The run status is not `running`. -/
  | notRunning
  /-- The pc is at or past the end of the program. -/
  | ended
  /-- The line does not decode. -/
  | skip (r : SkipReason)
  /-- The line decodes to an instruction. -/
  | run (i : Instr)
  deriving DecidableEq, Repr

/-- The state after construction with the arguments `c` (70_reset_and_hazards.md R250). -/
def State.constructed (c : Config) : State where
  cfg := c
  program := []
  regs := List.replicate c.nreg 0
  pc := 0
  ce := c.cacheEnReset
  statInstr := 0
  statHits := 0
  statMisses := 0
  rs := .idle
  cache := flushedCache c
  mem := []

/-- Reset is construction (70_reset_and_hazards.md R250), here with `Config.named` (assumption log 2). -/
def State.reset : State := State.constructed Config.named

end Sys2Proof.Machine
end

