-- ==== Sys2Proof/Machine/Bus.lean ====
section
/-! DEFINITION. The Memory Bus: cells keyed by fixed-width binary strings, the address validator and the three ports
(20_memory.md R70 to R77). -/

namespace Sys2Proof.Machine

/-! ### Address strings -/

/-- The `w` lowest bits of `a`, most significant first (00_scope.md R14). -/
def binBits : Nat → Nat → Line
  | 0, _ => []
  | w + 1, a => (if a / 2 ^ w % 2 = 1 then '1' else '0') :: binBits w a

/-- `bin_BW(a)` (00_scope.md R14). -/
def binBW (c : Config) (a : Nat) : Line := binBits (addressWidth c) a

/-- The characters `'0'` and `'1'`. -/
def isBit (ch : Char) : Bool := ch = '0' || ch = '1'

/-- `val(s)`, the unsigned integer a binary string spells (00_scope.md R14). -/
def bitsValue (s : Line) : Nat := s.foldl (fun n ch => 2 * n + (if ch = '1' then 1 else 0)) 0

/-- The address validator: shape, length and range (20_memory.md R72). -/
def busValid (c : Config) (s : Line) : Bool :=
  s.all isBit && s.length == addressWidth c && bitsValue s < c.memSize

/-- The engine's rendering of an integer address: the string, or none where the engine rejects it (20_memory.md R77). -/
def renderAddr (c : Config) (a : Int) : Option Line :=
  if 0 ≤ a ∧ a < c.memSize then some (binBW c a.toNat) else none

/-! ### Cells -/

/-- The integer cell `a` holds. -/
def cellRead (a : Nat) : Memory → Int
  | [] => unlistedCell
  | (b, w) :: m => if a = b then w else cellRead a m

/-- Cell `a <- v`, in canonical form: writing what an unlisted cell holds removes the pair. -/
def cellWrite (a : Nat) (v : Int) : Memory → Memory
  | [] => if v = unlistedCell then [] else [(a, v)]
  | (b, w) :: m =>
    if a < b then
      if v = unlistedCell then (b, w) :: m else (a, v) :: (b, w) :: m
    else if a = b then
      if v = unlistedCell then m else (a, v) :: m
    else (b, w) :: cellWrite a v m

/-! ### Ports: `none` is the failure `InvalidAddress` -/

/-- `Bus.read(s)` (20_memory.md R73). -/
def busRead (c : Config) (m : Memory) (s : Line) : Option Int :=
  if busValid c s = true then some (cellRead (bitsValue s) m) else none

/-- `Bus.write(s, v)` (20_memory.md R74). -/
def busWrite (c : Config) (m : Memory) (s : Line) (v : Int) : Option Memory :=
  if busValid c s = true then some (cellWrite (bitsValue s) (normValue c v) m) else none

/-- `Bus.clear()`: every cell is 0 (20_memory.md R75). -/
def busClear : Memory := []

end Sys2Proof.Machine
end

