-- ==== Sys2Proof/Machine/CachePort.lean ====
section
/-! DEFINITION. The Cache's ports: lookup, store with eviction, flush (20_memory.md R84 to R97). Keys are the opaque
strings of R83; a placeholder's key is none of them. -/

namespace Sys2Proof.Machine

/-- The first entry with a key; keys are pairwise distinct (20_memory.md R80). -/
def findEntry (key : CacheKey) (table : List CacheEntry) : Option CacheEntry :=
  table.find? (fun e => e.key == key)

/-- One entry changed in place: it keeps its place in insertion order (20_memory.md R91). -/
def updateEntry (key : CacheKey) (f : CacheEntry → CacheEntry) (table : List CacheEntry) : List CacheEntry :=
  table.map (fun e => if e.key = key then f e else e)

/-- The frequency counter, kept under LFU only (20_memory.md R80, R90, R91). -/
def bumpFreq (c : Config) (e : CacheEntry) : CacheEntry :=
  match c.evict with
  | .lfu => { e with freq := e.freq + 1 }
  | .lru => e

/-- The dirty flag, set by every store under write-back only (20_memory.md R91, R96). -/
def markDirty (c : Config) (e : CacheEntry) : CacheEntry :=
  match c.wpol with
  | .writeBack => { e with dirty := true }
  | .writeThrough => e

/-- Under LRU, the key moved or appended to the most-recently-used end (20_memory.md R90, R91). -/
def touchRecency (c : Config) (key : CacheKey) (recency : List CacheKey) : List CacheKey :=
  match c.evict with
  | .lfu => recency
  | .lru => recency.filter (fun k => k != key) ++ [key]

/-- The value a key holds, where the key is present: neither a missing key nor the sentinel (20_memory.md R84). -/
def cachedValue (k : Line) (ca : Cache) : Option Int := (findEntry (.addr k) ca.table).bind CacheEntry.value

/-- `Cache.lookup(k)`: the hit's value or none, and the Cache after it (20_memory.md R90). -/
def cacheLookup (c : Config) (k : Line) (ca : Cache) : Option Int × Cache :=
  match cachedValue k ca with
  | none => (none, ca)
  | some v =>
    (some v, { table := updateEntry (.addr k) (bumpFreq c) ca.table, recency := touchRecency c (.addr k) ca.recency })

/-- The entry with the smallest frequency, the earliest in insertion order among equals (20_memory.md R92). -/
def leastUsed : List CacheEntry → Option CacheEntry
  | [] => none
  | e :: es =>
    match leastUsed es with
    | none => some e
    | some m => if m.freq < e.freq then some m else some e

/-- The victim's key: LFU by R92, LRU the first of the recency order by R93 (20_memory.md). -/
def victim (c : Config) (ca : Cache) : Option CacheKey :=
  match c.evict with
  | .lfu => (leastUsed ca.table).map CacheEntry.key
  | .lru => ca.recency.head?

/-- Eviction: the entry leaves the table and its key the recency order, its value discarded (20_memory.md R94). -/
def evictKey (key : CacheKey) (ca : Cache) : Cache where
  table := ca.table.filter (fun e => e.key != key)
  recency := ca.recency.filter (fun k => k != key)

/-- Whether a store of this key evicts: a new key meets a full table (20_memory.md R91). -/
def storeEvicts (c : Config) (key : CacheKey) (ca : Cache) : Bool :=
  (findEntry key ca.table).isNone && c.cap ≤ ca.table.length

/-- The key a store of `key` evicts, if it evicts one (20_memory.md R91 to R93). -/
def storeVictim (c : Config) (key : CacheKey) (ca : Cache) : Option CacheKey :=
  if storeEvicts c key ca = true then victim c ca else none

/-- The Cache a store inserts into, after the eviction if there is one (20_memory.md R91). -/
def makeRoom (c : Config) (key : CacheKey) (ca : Cache) : Cache :=
  match storeVictim c key ca with
  | none => ca
  | some v => evictKey v ca

/-- The value overwritten, all else kept (20_memory.md R91). -/
def setValue (v : Int) (e : CacheEntry) : CacheEntry := { e with value := some v }

/-- The table with the key's entry present and holding `v`: overwritten in place, or appended with frequency 0 and
clean (20_memory.md R91). -/
def putEntry (key : CacheKey) (v : Int) (table : List CacheEntry) : List CacheEntry :=
  if (findEntry key table).isSome then updateEntry key (setValue v) table
  else table ++ [{ key := key, value := some v, freq := 0, dirty := false }]

/-- `Cache.store(k, v)` (20_memory.md R91). -/
def cacheStore (c : Config) (k : Line) (v : Int) (ca : Cache) : Cache :=
  let room := makeRoom c (.addr k) ca
  { table := updateEntry (.addr k) (fun e => markDirty c (bumpFreq c e)) (putEntry (.addr k) (normValue c v) room.table)
    recency := touchRecency c (.addr k) room.recency }

/-- `Cache.flush()`: `CAP` placeholders, every address entry discarded, no bus write (20_memory.md R95). -/
def cacheFlush (c : Config) : Cache := flushedCache c

end Sys2Proof.Machine
end

