-- ==== Sys2Proof/Machine/Ops.lean ====
section
/-! DEFINITION. The named operations over State: registers, pc, flags and counters, the engine's load and store path, the
ways an instruction ends (Continue, Skip-on-error, Halt, a fatal-tier error), fetch, and loading a program. -/

namespace Sys2Proof.Machine

/-! ### One home for each piece of state -/

/-- `pc <- n` (00_scope.md R13). -/
def setPc (n : Nat) (s : State) : State := { s with pc := n }

/-- `RS <- r` (10_state.md R38). -/
def setRs (r : RunStatus) (s : State) : State := { s with rs := r }

/-- `CE <- b` (10_state.md R36). -/
def setCe (b : Bool) (s : State) : State := { s with ce := b }

/-- The Cache replaced. -/
def setCache (ca : Cache) (s : State) : State := { s with cache := ca }

/-- The Memory Bus cells replaced. -/
def setMem (m : Memory) (s : State) : State := { s with mem := m }

/-- The instruction memory replaced, by the host alone (10_state.md R42). -/
def setProgram (p : List Line) (s : State) : State := { s with program := p }

/-- `STAT.instr <- STAT.instr + 1` (10_state.md R51). -/
def countInstr (s : State) : State := { s with statInstr := s.statInstr + 1 }

/-- `STAT.hits <- STAT.hits + 1` (42_loadstore.md R190). -/
def countHit (s : State) : State := { s with statHits := s.statHits + 1 }

/-- `STAT.misses <- STAT.misses + 1` (42_loadstore.md R190). -/
def countMiss (s : State) : State := { s with statMisses := s.statMisses + 1 }

/-- `x[k]` (00_scope.md R13). No register is hard-wired (10_state.md R31). A register that does not exist reads 0; no
decoded instruction names one, and no meaning reads one (assumption log 17). -/
def readReg (k : Nat) (s : State) : Int := s.regs.getD k 0

/-- `x[k] <- v`, through `norm` (00_scope.md R12, R13). -/
def writeReg (k : Nat) (v : Int) (s : State) : State := { s with regs := s.regs.set k (normValue s.cfg v) }

/-! ### How an instruction ends (10_state.md R49, R51, R53) -/

/-- Continue with the next pc `n`: the pc is written and the instruction counted (10_state.md R49, R51). -/
def complete (n : Nat) (s : State) : State := countInstr (setPc n s)

/-- Continue with the base advance (10_state.md R49). -/
def advance (s : State) : State := complete (s.pc + s.cfg.pcStep) s

/-- Skip-on-error: the pc takes the base advance and nothing else changes (60_exceptions.md R212). -/
def skipLine (s : State) : State := setPc (s.pc + s.cfg.pcStep) s

/-- Halt: the run ends with the pc at the instruction and the counter unchanged (43_system.md R202). -/
def haltRun (s : State) : State := setRs .halted s

/-- A fatal-tier error, the one way this hardware takes an exception: applied to the state before the instruction, so
that the instruction writes nothing (60_exceptions.md R215). InvalidAddress obeys `ON_FATAL` (R216), NegativePc always
stops (R217). No pc, status or cause is saved and no handler runs (R222), and there is no return from it (R223): only
a new run leaves the status `faulted` (R218). -/
def fatalError (e : FatalError) (s : State) : State :=
  match e, s.cfg.onFatal with
  | .invalidAddress _ _, .skip => skipLine s
  | .invalidAddress _ _, .stop => setRs (.faulted e) s
  | .negativePc _ _, _ => setRs (.faulted e) s

/-- A control transfer to the integer index `next`: NegativePc with nothing written when it is below zero, else the
state `written` with the pc there (10_state.md R50, R53). -/
def transfer (next : Int) (written s : State) : State :=
  if next < 0 then fatalError (.negativePc s.pc next) s else complete next.toNat written

/-! ### The engine's load and store path (00_scope.md R15) -/

/-- `MemRead(a, 1)`: the value, and the state with the Cache and the counters it changes; `none` is InvalidAddress,
found before the Cache or the bus is touched (42_loadstore.md R190). -/
def memRead (a : Int) (s : State) : Option (Int × State) :=
  match renderAddr s.cfg a with
  | none => none
  | some k =>
    match busRead s.cfg s.mem k with
    | none => none
    | some cell =>
      if s.ce = true then
        match cacheLookup s.cfg k s.cache with
        | (some v, ca) => some (v, countHit (setCache ca s))
        | (none, _) => some (cell, countMiss (setCache (cacheStore s.cfg k cell s.cache) s))
      else some (cell, s)

/-- `MemWrite(a, 1, v)`: the Cache when enabled, then always the bus; `none` is InvalidAddress (42_loadstore.md R193). -/
def memWrite (a : Int) (v : Int) (s : State) : Option State :=
  match renderAddr s.cfg a with
  | none => none
  | some k =>
    match busWrite s.cfg s.mem k v with
    | none => none
    | some m =>
      if s.ce = true then some (setMem m (setCache (cacheStore s.cfg k v s.cache) s)) else some (setMem m s)

/-! ### Fetch and the end of a run -/

/-- Fetch and decode (10_state.md R45, R46, R53). -/
def fetch (s : State) : Fetched :=
  match s.rs with
  | .running =>
    match s.program[s.pc]? with
    | none => .ended
    | some line =>
      match decode s.cfg.nreg line with
      | .error r => .skip r
      | .ok i => .run i
  | .idle => .notRunning
  | .halted => .notRunning
  | .completed => .notRunning
  | .faulted _ => .notRunning

/-- The pc is at or past the end: the run is complete, nothing else changes (10_state.md R45). -/
def endRun (s : State) : State := setRs .completed s

/-- `run(P)` up to its first step: the program given, pc 0, status running, everything else kept (10_state.md R52). -/
def startRun (p : List Line) (s : State) : State := setRs .running (setPc 0 (setProgram p s))

/-- A program with the line `l` at index `n`, empty lines before it where the program was shorter. -/
def placeLine (n : Nat) (l : Line) (p : List Line) : List Line :=
  p.take n ++ List.replicate (n - p.length) [] ++ l :: p.drop (n + 1)

end Sys2Proof.Machine
end

