-- ==== Sys2Proof/Machine/Flags.lean ====
section
/-! DEFINITION. The hardware has no flags (10_state.md R34): a comparison's result goes to a register (SLT) or decides a
branch (BNE). These are the two comparisons, both of signed values (40_arith.md R174). -/

namespace Sys2Proof.Machine

/-- SLT's result: 1 or 0 (40_arith.md R173). -/
def setLess (v w : Int) : Int := if v < w then 1 else 0

/-- BNE's condition (41_control.md R180). -/
def notEqual (v w : Int) : Bool := v != w

end Sys2Proof.Machine
end

