-- ==== Sys2Proof/Machine/Operands.lean ====
section
/-! DEFINITION. The operand forms: register operands, the one addressing mode, branch and jump targets. -/

namespace Sys2Proof.Machine

/-- The link register's index, a constant (00_scope.md R10). -/
def linkReg : Nat := 7

/-- Every register an instruction names exists. Decode refuses a line that names another (30_encoding.md R136, R140),
so every decoded instruction passes. -/
def regsExist (c : Config) (ks : List Nat) : Bool := ks.all (fun k => k < c.nreg)

/-- An instruction that names the registers `ks`: its effect where they exist, else what the engine does with the line
that names one that does not, Skip-on-error (30_encoding.md R136, R140; 60_exceptions.md R212; assumption log 7). -/
def withRegs (ks : List Nat) (effect : State → State) (s : State) : Host.Outcome State Fault Refusal :=
  if regsExist s.cfg ks = true then .next (effect s) else .next (skipLine s)

/-- Base register plus unscaled offset, the only addressing mode (42_loadstore.md R194). -/
def effectiveAddr (base : Nat) (offset : Int) (s : State) : Int := readReg base s + offset

/-- The next pc of a taken BNE (41_control.md R180). -/
def branchTarget (offset : Int) (s : State) : Int := s.pc + 4 + 4 * offset + s.cfg.pcStep

/-- The next pc of J and JAL (41_control.md R182, R184). -/
def jumpTarget (target : Int) : Int := 4 * target

/-- The link value of JAL: the index of the JAL plus 4 (41_control.md R184). -/
def linkValue (s : State) : Int := s.pc + 4

end Sys2Proof.Machine
end

