-- ==== Sys2Proof/Machine/Arith.lean ====
section
/-! DEFINITION. ADD, ADDI, SUB, SLT (40_arith.md). Each ends with Continue and the base advance. -/

namespace Sys2Proof.Machine

/-- The shape of the four: `x[d] <- v`, then the base advance. -/
def writeResult (d : Nat) (v : Int) (s : State) : State := advance (writeReg d v s)

/-- ADD (40_arith.md R170). -/
def execAdd (d a b : Nat) (s : State) : Host.Outcome State Fault Refusal :=
  withRegs [d, a, b] (fun s => writeResult d (readReg a s + readReg b s) s) s

/-- ADDI (40_arith.md R171). -/
def execAddi (d a : Nat) (imm : Int) (s : State) : Host.Outcome State Fault Refusal :=
  withRegs [d, a] (fun s => writeResult d (readReg a s + imm) s) s

/-- SUB (40_arith.md R172). -/
def execSub (d a b : Nat) (s : State) : Host.Outcome State Fault Refusal :=
  withRegs [d, a, b] (fun s => writeResult d (readReg a s - readReg b s) s) s

/-- SLT (40_arith.md R173). -/
def execSlt (d a b : Nat) (s : State) : Host.Outcome State Fault Refusal :=
  withRegs [d, a, b] (fun s => writeResult d (setLess (readReg a s) (readReg b s)) s) s

end Sys2Proof.Machine
end

