-- ==== Sys2Proof/Machine/Control.lean ====
section
/-! DEFINITION. BNE, J, JAL (41_control.md). A negative next pc is NegativePc and nothing is written. -/

namespace Sys2Proof.Machine

/-- BNE: taken adds `4 + 4*offset` to the base advance; the target is computed only when taken (41_control.md R180). -/
def execBne (a b : Nat) (offset : Int) (s : State) : Host.Outcome State Fault Refusal :=
  withRegs [a, b]
    (fun s => if notEqual (readReg a s) (readReg b s) = true then transfer (branchTarget offset s) s s else advance s) s

/-- J: the pc overwritten, no base advance (41_control.md R182). -/
def execJ (target : Int) (s : State) : Host.Outcome State Fault Refusal :=
  .next (transfer (jumpTarget target) s s)

/-- JAL: the link register written with the transfer, or not at all (41_control.md R184). -/
def execJal (target : Int) (s : State) : Host.Outcome State Fault Refusal :=
  withRegs [linkReg] (fun s => transfer (jumpTarget target) (writeReg linkReg (linkValue s) s) s) s

end Sys2Proof.Machine
end

