-- ==== Sys2Proof/Machine/LoadStore.lean ====
section
/-! DEFINITION. LW and SW (42_loadstore.md): base register plus offset, through the Cache when it is enabled. -/

namespace Sys2Proof.Machine

/-- A load of address `a` into register `t` (42_loadstore.md R190). -/
def loadInto (t : Nat) (a : Int) (s : State) : State :=
  match memRead a s with
  | none => fatalError (.invalidAddress s.pc a) s
  | some (v, s') => advance (writeReg t v s')

/-- A store of `v` to address `a` (42_loadstore.md R193). -/
def storeFrom (v : Int) (a : Int) (s : State) : State :=
  match memWrite a v s with
  | none => fatalError (.invalidAddress s.pc a) s
  | some s' => advance s'

/-- LW: `b` the base register, `t` the destination (42_loadstore.md R190). -/
def execLw (b t : Nat) (offset : Int) (s : State) : Host.Outcome State Fault Refusal :=
  withRegs [b, t] (fun s => loadInto t (effectiveAddr b offset s) s) s

/-- SW: `b` the base register, `t` the register stored (42_loadstore.md R193). -/
def execSw (b t : Nat) (offset : Int) (s : State) : Host.Outcome State Fault Refusal :=
  withRegs [b, t] (fun s => storeFrom (readReg t s) (effectiveAddr b offset s) s) s

end Sys2Proof.Machine
end

