-- ==== Sys2Proof/Machine/System.lean ====
section
/-! DEFINITION. CACHE and HALT (43_system.md). -/

namespace Sys2Proof.Machine

/-- What a CACHE mode writes: the enable flag or the Cache (43_system.md R200). -/
def applyCacheMode (mode : CacheMode) (s : State) : State :=
  match mode with
  | .disable => setCe false s
  | .enable => setCe true s
  | .flush => setCache (cacheFlush s.cfg) s

/-- CACHE (43_system.md R200). -/
def execCache (mode : CacheMode) (s : State) : Host.Outcome State Fault Refusal :=
  .next (advance (applyCacheMode mode s))

/-- HALT (43_system.md R202). -/
def execHalt (s : State) : Host.Outcome State Fault Refusal := .next (haltRun s)

end Sys2Proof.Machine
end

