-- ==== Sys2Proof/Machine/Dispatch.lean ====
section
/-! DEFINITION. Dispatch: one arm per instruction (10_state.md R47). -/

namespace Sys2Proof.Machine

def exec (i : Instr) (s : State) : Host.Outcome State Fault Refusal :=
  match i with
  | .add d a b => Sys2Proof.Machine.execAdd d a b s
  | .addi d a imm => Sys2Proof.Machine.execAddi d a imm s
  | .sub d a b => Sys2Proof.Machine.execSub d a b s
  | .slt d a b => Sys2Proof.Machine.execSlt d a b s
  | .bne a b offset => Sys2Proof.Machine.execBne a b offset s
  | .j target => Sys2Proof.Machine.execJ target s
  | .jal target => Sys2Proof.Machine.execJal target s
  | .lw b t offset => Sys2Proof.Machine.execLw b t offset s
  | .sw b t offset => Sys2Proof.Machine.execSw b t offset s
  | .cache mode => Sys2Proof.Machine.execCache mode s
  | .halt => Sys2Proof.Machine.execHalt s

end Sys2Proof.Machine
end

