-- ==== Sys2Proof/Machine/Step.lean ====
section
/-! DEFINITION. One step: one instruction, whole and atomic (10_state.md R53, 70_reset_and_hazards.md R270). -/

namespace Sys2Proof.Machine

/-- The step of 10_state.md R53. It requires the run status `running`; from any other there is no step. -/
def step (s : State) : Host.Outcome State Fault Refusal :=
  match fetch s with
  | .notRunning => .fault .notRunning
  | .ended => .next (endRun s)
  | .skip _ => .next (skipLine s)
  | .run i => exec i s

/-- `s` with the line of the word `w` at the pc and the run status `running`, so that the next step runs it
(assumption log 4, 8). It stands for the host's `run` of a program that holds this line. -/
def State.withFetchWord (s : State) (nbits w : Nat) : State :=
  setRs .running (setProgram (placeLine s.pc (lineOfWord nbits w) s.program) s)

end Sys2Proof.Machine
end

