-- ==== Sys2Proof/Machine/HostPort.lean ====
section
/-! DEFINITION. What the host may do to an instance between runs: construct it, preload the bus, use the bus and cache
ports, and start a run (70_reset_and_hazards.md R260 to R264). Reading registers, pc, CE, RS and counters is reading the
fields of State. -/

namespace Sys2Proof.Machine

/-- Construction: the state after reset, or failure on an illegal argument (70_reset_and_hazards.md R250, R260). -/
def construct (c : Config) : Option State := if legal c = true then some (State.constructed c) else none

/-- A line split at its first comma; none where it has no comma (70_reset_and_hazards.md R263). -/
def splitFirstComma : Line → Option (Line × Line)
  | [] => none
  | c :: cs => if c = ',' then some ([], cs) else (splitFirstComma cs).map (fun p => (c :: p.1, p.2))

/-- What a data-source line asks to write: an address token the validator accepts and an integer token
(70_reset_and_hazards.md R263). -/
def parseDataLine (c : Config) (l : Line) : Option (Line × Int) :=
  match splitFirstComma l with
  | none => none
  | some (address, value) =>
    match parseInt (trim value) with
    | .error _ => none
    | .ok v => if busValid c (trim address) = true then some (trim address, v) else none

/-- One data-source line: a bus write, or nothing (70_reset_and_hazards.md R263). -/
def preloadLine (s : State) (l : Line) : State :=
  match parseDataLine s.cfg l with
  | none => s
  | some (address, v) =>
    match busWrite s.cfg s.mem address v with
    | none => s
    | some m => setMem m s

/-- The data source, line by line in order (70_reset_and_hazards.md R263). -/
def preload (lines : List Line) (s : State) : State := lines.foldl preloadLine s

/-- The host's operations (70_reset_and_hazards.md R264). -/
inductive HostOp where
  | preload (lines : List Line)
  | busRead (address : Line)
  | busWrite (address : Line) (v : Int)
  | busClear
  | cacheLookup (k : Line)
  | cacheStore (k : Line) (v : Int)
  | cacheFlush
  | run (p : List Line)
  deriving DecidableEq, Repr

/-- What an operation gives back to the host. -/
inductive HostReply where
  | done
  | value (v : Int)
  | absent
  | invalidAddress
  deriving DecidableEq, Repr

/-- The effect of an operation, port by port (70_reset_and_hazards.md R264). A host's lookup or store changes no counter. -/
def applyHostOp (op : HostOp) (s : State) : State × HostReply :=
  match op with
  | .preload lines => (preload lines s, .done)
  | .busRead address =>
    match busRead s.cfg s.mem address with
    | none => (s, .invalidAddress)
    | some v => (s, .value v)
  | .busWrite address v =>
    match busWrite s.cfg s.mem address v with
    | none => (s, .invalidAddress)
    | some m => (setMem m s, .done)
  | .busClear => (setMem busClear s, .done)
  | .cacheLookup k =>
    match cacheLookup s.cfg k s.cache with
    | (none, ca) => (setCache ca s, .absent)
    | (some v, ca) => (setCache ca s, .value v)
  | .cacheStore k v => (setCache (cacheStore s.cfg k v s.cache) s, .done)
  | .cacheFlush => (setCache (cacheFlush s.cfg) s, .done)
  | .run p => (startRun p s, .done)

/-- The host acts only while no run is in progress (70_reset_and_hazards.md R264); `none` while one is. -/
def hostAct (op : HostOp) (s : State) : Option (State × HostReply) :=
  match s.rs with
  | .running => none
  | .idle => some (applyHostOp op s)
  | .halted => some (applyHostOp op s)
  | .completed => some (applyHostOp op s)
  | .faulted _ => some (applyHostOp op s)

end Sys2Proof.Machine
end

