-- ==== Sys2Proof/Machine/Trace.lean ====
section
/-! DEFINITION. The trace channel (60_exceptions.md R237): an output of the step that no rule reads, so a function of the
state before the step and no part of State (assumption log 13). -/

namespace Sys2Proof.Machine

/-- The events of 60_exceptions.md R237, and the report of a malformed data line (70_reset_and_hazards.md R263). -/
inductive TraceEvent where
  | skip (pc : Nat) (r : SkipReason)
  | hit (k : Line)
  | miss (k : Line)
  | evict (key : CacheKey)
  | fatalSkipped (e : FatalError)
  | badDataLine (l : Line)
  deriving DecidableEq, Repr

/-- The eviction of a store, if it evicts (20_memory.md R94). -/
def storeEvents (c : Config) (k : Line) (ca : Cache) : List TraceEvent :=
  match storeVictim c (.addr k) ca with
  | none => []
  | some v => [.evict v]

/-- An InvalidAddress is reported where `ON_FATAL` skips it (60_exceptions.md R216). -/
def fatalEvents (e : FatalError) (s : State) : List TraceEvent :=
  match s.cfg.onFatal with
  | .skip => [.fatalSkipped e]
  | .stop => []

/-- The events of a load from address `a` (42_loadstore.md R190). -/
def loadEvents (a : Int) (s : State) : List TraceEvent :=
  match renderAddr s.cfg a with
  | none => fatalEvents (.invalidAddress s.pc a) s
  | some k =>
    match busRead s.cfg s.mem k with
    | none => fatalEvents (.invalidAddress s.pc a) s
    | some _ =>
      if s.ce = true then
        match cachedValue k s.cache with
        | some _ => [.hit k]
        | none => .miss k :: storeEvents s.cfg k s.cache
      else []

/-- The events of a store to address `a` (42_loadstore.md R193). -/
def storeToEvents (a : Int) (s : State) : List TraceEvent :=
  match renderAddr s.cfg a with
  | none => fatalEvents (.invalidAddress s.pc a) s
  | some k =>
    if busValid s.cfg k = true then
      if s.ce = true then storeEvents s.cfg k s.cache else []
    else fatalEvents (.invalidAddress s.pc a) s

/-- The events of an instruction; only LW and SW have any. -/
def instrEvents (i : Instr) (s : State) : List TraceEvent :=
  match i with
  | .add _ _ _ => []
  | .addi _ _ _ => []
  | .sub _ _ _ => []
  | .slt _ _ _ => []
  | .bne _ _ _ => []
  | .j _ => []
  | .jal _ => []
  | .lw b _ offset => loadEvents (effectiveAddr b offset s) s
  | .sw b _ offset => storeToEvents (effectiveAddr b offset s) s
  | .cache _ => []
  | .halt => []

/-- The events of the step from `s` (60_exceptions.md R237). -/
def stepEvents (s : State) : List TraceEvent :=
  match fetch s with
  | .notRunning => []
  | .ended => []
  | .skip r => [.skip s.pc r]
  | .run i => instrEvents i s

/-- The report of a data-source line that loads nothing (70_reset_and_hazards.md R263). -/
def dataLineEvents (c : Config) (l : Line) : List TraceEvent :=
  match parseDataLine c l with
  | none => [.badDataLine l]
  | some _ => []

/-- The events of a host operation: the cache ports report as they do for the engine (60_exceptions.md R237), a preload
reports its malformed lines (70_reset_and_hazards.md R263). -/
def hostEvents (op : HostOp) (s : State) : List TraceEvent :=
  match op with
  | .preload lines => lines.flatMap (dataLineEvents s.cfg)
  | .busRead _ => []
  | .busWrite _ _ => []
  | .busClear => []
  | .cacheLookup k =>
    match cachedValue k s.cache with
    | some _ => [.hit k]
    | none => [.miss k]
  | .cacheStore k _ => storeEvents s.cfg k s.cache
  | .cacheFlush => []
  | .run _ => []

end Sys2Proof.Machine
end

