-- ==== Sys2Proof/Safety.lean ====
section
/-! DEFINITION. The terms claims are stated in: the invariant of an instance, what two states have in common, and
coherence of the Cache with the Memory Bus. -/

namespace Sys2Proof.Machine

/-! ### The invariant -/

/-- What one Cache entry may hold: a placeholder is empty, unused and clean, an address entry holds a normalised
integer (20_memory.md R82); the counter is kept under LFU only and then counts the insertion, the dirty flag is set
under write-back only (20_memory.md R80, R91). -/
def CacheEntry.fits (c : Config) (e : CacheEntry) : Bool :=
  (match e.key, e.value with
    | .empty i, none => i < c.cap && e.freq == 0 && !e.dirty
    | .addr _, some v =>
      normValue c v == v &&
        (match c.evict with
          | .lfu => 1 ≤ e.freq
          | .lru => e.freq == 0) &&
        (match c.wpol with
          | .writeBack => e.dirty
          | .writeThrough => !e.dirty)
    | _, _ => false)

/-- Under LRU the recency order holds the table's keys, under LFU it is empty (20_memory.md R80, R93). -/
def Cache.recencyFits (c : Config) (ca : Cache) : Prop :=
  match c.evict with
  | .lru => ca.recency.Perm (ca.table.map CacheEntry.key)
  | .lfu => ca.recency = []

/-- The Cache's invariant (20_memory.md R80 to R82, R86). -/
structure Cache.Inv (c : Config) (ca : Cache) : Prop where
  full : ca.table.length = c.cap
  distinct : (ca.table.map CacheEntry.key).Nodup
  entries : ∀ e ∈ ca.table, e.fits c = true
  order : ca.recencyFits c

/-- The Memory Bus's invariant: canonical form, only cells that exist, normalised values (20_memory.md R70, R74). -/
structure Memory.Inv (c : Config) (m : Memory) : Prop where
  form : Memory.wf m = true
  range : ∀ p ∈ m, p.1 < c.memSize
  normal : ∀ p ∈ m, normValue c p.2 = p.2

/-- What an ended run's status says of the state it left (10_state.md R38, R49; 60_exceptions.md R214 to R217). -/
def State.statusFits (s : State) : Prop :=
  match s.rs with
  | .idle => True
  | .running => True
  | .halted => ∃ line, s.program[s.pc]? = some line ∧ decode s.cfg.nreg line = .ok .halt
  | .completed => s.program.length ≤ s.pc
  | .faulted (.invalidAddress p a) => p = s.pc ∧ (a < 0 ∨ (s.cfg.memSize : Int) ≤ a) ∧ s.cfg.onFatal = .stop
  | .faulted (.negativePc p target) => p = s.pc ∧ target < 0

/-- The invariant of an instance. -/
structure State.Inv (s : State) : Prop where
  legalCfg : legal s.cfg = true
  regCount : s.regs.length = s.cfg.nreg
  regNormal : ∀ v ∈ s.regs, normValue s.cfg v = v
  memInv : Memory.Inv s.cfg s.mem
  cacheInv : Cache.Inv s.cfg s.cache
  status : s.statusFits

/-! ### What an instruction leaves unchanged -/

/-- Every register but those of `ds`. -/
def sameRegsBut (ds : List Nat) (s t : State) : Prop :=
  t.regs.length = s.regs.length ∧ ∀ k, k ∉ ds → readReg k t = readReg k s

/-- Every cell of the Memory Bus. -/
def sameCells (s t : State) : Prop := ∀ a, cellRead a t.mem = cellRead a s.mem

/-- Every cell of the Memory Bus but `a`. -/
def sameCellsBut (a : Nat) (s t : State) : Prop := ∀ b, b ≠ a → cellRead b t.mem = cellRead b s.mem

/-- The construction arguments, the program and the run status. -/
def sameSetup (s t : State) : Prop := t.cfg = s.cfg ∧ t.program = s.program ∧ t.rs = s.rs

/-- The enable flag, the Cache and its two counters. -/
def sameCacheSide (s t : State) : Prop :=
  t.ce = s.ce ∧ t.cache = s.cache ∧ t.statHits = s.statHits ∧ t.statMisses = s.statMisses

/-- All an instruction that touches neither memory nor the Cache leaves unchanged, when it writes the registers `ds`
and is counted. -/
def onlyRegs (ds : List Nat) (s t : State) : Prop :=
  sameRegsBut ds s t ∧ sameCells s t ∧ sameSetup s t ∧ sameCacheSide s t ∧ t.statInstr = s.statInstr + 1

/-! ### What each instruction does to the machine as a whole -/

/-- The registers an instruction may write: the right column of the table of 10_state.md R33. -/
def writtenRegs : Instr → List Nat
  | .add d _ _ => [d]
  | .addi d _ _ => [d]
  | .sub d _ _ => [d]
  | .slt d _ _ => [d]
  | .bne _ _ _ => []
  | .j _ => []
  | .jal _ => [7]
  | .lw _ t _ => [t]
  | .sw _ _ _ => []
  | .cache _ => []
  | .halt => []

/-- When an instruction raises its fatal-tier error: an address outside the cells for LW and SW, a next pc below zero
for a taken BNE, J and JAL (60_exceptions.md R214). -/
def raisesFatal (i : Instr) (s : State) : Prop :=
  match i with
  | .bne a b offset => readReg a s ≠ readReg b s ∧ (s.pc : Int) + 4 + 4 * offset + s.cfg.pcStep < 0
  | .j target => target < 0
  | .jal target => target < 0
  | .lw b _ offset => readReg b s + offset < 0 ∨ (s.cfg.memSize : Int) ≤ readReg b s + offset
  | .sw b _ offset => readReg b s + offset < 0 ∨ (s.cfg.memSize : Int) ≤ readReg b s + offset
  | .add _ _ _ => False
  | .addi _ _ _ => False
  | .sub _ _ _ => False
  | .slt _ _ _ => False
  | .cache _ => False
  | .halt => False

/-- Whether an instruction's fatal-tier error is one `ON_FATAL = SKIP` skips: InvalidAddress, never NegativePc
(60_exceptions.md R216, R217). -/
def accessesMemory : Instr → Bool
  | .lw _ _ _ => true
  | .sw _ _ _ => true
  | .add _ _ _ => false
  | .addi _ _ _ => false
  | .sub _ _ _ => false
  | .slt _ _ _ => false
  | .bne _ _ _ => false
  | .j _ => false
  | .jal _ => false
  | .cache _ => false
  | .halt => false

/-- The next pc of an instruction that raises no fatal-tier error, HALT's unchanged pc among them (10_state.md R49). -/
def continuePc (i : Instr) (s : State) : Int :=
  match i with
  | .bne a b offset =>
    if readReg a s = readReg b s then s.pc + s.cfg.pcStep else s.pc + 4 + 4 * offset + s.cfg.pcStep
  | .j target => 4 * target
  | .jal target => 4 * target
  | .lw _ _ _ => s.pc + s.cfg.pcStep
  | .sw _ _ _ => s.pc + s.cfg.pcStep
  | .add _ _ _ => s.pc + s.cfg.pcStep
  | .addi _ _ _ => s.pc + s.cfg.pcStep
  | .sub _ _ _ => s.pc + s.cfg.pcStep
  | .slt _ _ _ => s.pc + s.cfg.pcStep
  | .cache _ => s.pc + s.cfg.pcStep
  | .halt => s.pc

/-! ### The Cache and the bus -/

/-- An integer address the engine accepts (20_memory.md R77). -/
def inRange (c : Config) (a : Int) : Prop := 0 ≤ a ∧ a < c.memSize

/-- Every value the Cache holds for a valid bus address is the cell's (70_reset_and_hazards.md R275 says when it is
not). -/
def coherent (s : State) : Prop :=
  ∀ k v, busValid s.cfg k = true → cachedValue k s.cache = some v → v = cellRead (bitsValue k) s.mem

/-- An entry without its dirty flag. -/
def CacheEntry.undirtied (e : CacheEntry) : CacheEntry := { e with dirty := false }

/-- Two states that differ at most in the write policy and in dirty flags (20_memory.md R96). -/
def sameButWritePolicy (s t : State) : Prop :=
  { t with
    cfg := { t.cfg with wpol := s.cfg.wpol }
    cache := { t.cache with table := t.cache.table.map CacheEntry.undirtied } } =
  { s with cache := { s.cache with table := s.cache.table.map CacheEntry.undirtied } }

end Sys2Proof.Machine
end

