-- ==== Sys2Proof/Certificates/Slice0/Obligations.lean ====
section
/-! DEFINITION. The statements for the provers. Each docstring names the rule of spec/ it formalises and, where the rule
rests on a decision D<n> of 92_eei_decisions.md or on an entry of the assumption log, that too. -/

open Sys2Proof Sys2Proof.Machine

/-! ### Decode and encode -/

/-- 30_encoding.md R147: the table of decode examples, all with NREG = 9, and with the empty line the blank one. -/
def Obligations.DecodeExamplesReadAsTheTableSays : Prop :=
  decode 9 "ADD,R2,R0,R1".toList = .ok (.add 2 0 1) ∧
  decode 9 "  addi , r3 , R03 , -12  ".toList = .ok (.addi 3 3 (-12)) ∧
  decode 9 "bne,R1,R2,+2".toList = .ok (.bne 1 2 2) ∧
  decode 9 "HALT".toList = .ok .halt ∧
  decode 9 "".toList = .error .emptyLine ∧
  decode 9 "   ".toList = .error .emptyLine ∧
  decode 9 "MUL,R1,R2,R3".toList = .error .unknownOpcode ∧
  decode 9 "ADD,R1,R2".toList = .error .operandCount ∧
  decode 9 "HALT,".toList = .error .operandCount ∧
  decode 9 "ADD,R1,X2,R3".toList = .error .badRegister ∧
  decode 9 "ADD,R9,R1,R2".toList = .error .registerOutOfRange ∧
  decode 9 "ADDI,R1,R2,0x10".toList = .error .badInteger ∧
  decode 9 "J,abc".toList = .error .badInteger ∧
  decode 9 "CACHE,3".toList = .error .reservedCacheMode ∧
  decode 9 "CACHE,-1".toList = .error .reservedCacheMode ∧
  decode 9 "ADD,R9,X1,R2".toList = .error .registerOutOfRange

/-- 30_encoding.md R145, last sentence: decoding the canonical spelling of a well-formed instruction gives it back,
with every operand at every value. -/
def Obligations.DecodeOfEncodeIsTheInstruction : Prop :=
  ∀ (nreg : Nat) (i : Instr), i.wf nreg = true → decode nreg (encode i) = .ok i

/-- 30_encoding.md R146: a decoded instruction names only registers below NREG, and is a JAL only with NREG at least 8. -/
def Obligations.DecodedInstructionIsWellFormed : Prop :=
  ∀ (nreg : Nat) (l : Line) (i : Instr), decode nreg l = .ok i → i.wf nreg = true

/-- 30_encoding.md R131 (decision D19 for the set): leading and trailing whitespace, the six characters named, do not
matter, and the lines skipped as empty are exactly those of nothing else. -/
def Obligations.WhitespaceAroundALineIsTrimmed : Prop :=
  (∀ (nreg : Nat) (before after l : Line),
    (∀ c ∈ before ++ after, c.toNat ∈ [0x20, 0x09, 0x0A, 0x0B, 0x0C, 0x0D]) →
      decode nreg (before ++ l ++ after) = decode nreg l) ∧
  ∀ (nreg : Nat) (l : Line),
    decode nreg l = .error .emptyLine ↔ ∀ c ∈ l, c.toNat ∈ [0x20, 0x09, 0x0A, 0x0B, 0x0C, 0x0D]

/-- 30_encoding.md R133: an opcode token selects the mnemonic it equals with ASCII letter case ignored, and any other,
the empty token included, is an unknown opcode. Upper case is written out from the character codes. -/
def Obligations.OpcodeTokenIsMatchedWithoutCase : Prop :=
  ∀ (nreg : Nat) (t : Line),
    let up := t.map (fun c => if 97 ≤ c.toNat ∧ c.toNat ≤ 122 then Char.ofNat (c.toNat - 32) else c)
    (∀ op : Opcode, opcodeOf t = some op ↔ up = op.spelling) ∧
    ((∀ op : Opcode, up ≠ op.spelling) → ∀ (l : Line) (ops : List Line), trim l ≠ [] → tokens l = t :: ops →
      decode nreg l = .error .unknownOpcode)

/-- 30_encoding.md R134: ADD, ADDI, SUB, SLT, BNE, LW and SW take 3 operands, J, JAL and CACHE 1, HALT 0, and a line of a
known opcode with another count is skipped. -/
def Obligations.WrongOperandCountIsSkipped : Prop :=
  ([Opcode.add, .addi, .sub, .slt, .bne, .lw, .sw].map Opcode.operandCount = [3, 3, 3, 3, 3, 3, 3] ∧
    [Opcode.j, .jal, .cache].map Opcode.operandCount = [1, 1, 1] ∧ Opcode.halt.operandCount = 0) ∧
  ∀ (nreg : Nat) (l t0 : Line) (ops : List Line) (op : Opcode), trim l ≠ [] → tokens l = t0 :: ops →
    opcodeOf t0 = some op → ops.length ≠ op.operandCount → decode nreg l = .error .operandCount

/-- 30_encoding.md R135 and R142: in each format the operand tokens, in their order, are the operands of the
instruction the opcode names. -/
def Obligations.FormatsPlaceTheirOperands : Prop :=
  ∀ (nreg : Nat) (l t0 a b c : Line), trim l ≠ [] →
    (∀ x y z : Nat, tokens l = [t0, a, b, c] → parseReg nreg a = .ok x → parseReg nreg b = .ok y →
      parseReg nreg c = .ok z →
        (opcodeOf t0 = some .add → decode nreg l = .ok (.add x y z)) ∧
        (opcodeOf t0 = some .sub → decode nreg l = .ok (.sub x y z)) ∧
        (opcodeOf t0 = some .slt → decode nreg l = .ok (.slt x y z))) ∧
    (∀ (x y : Nat) (v : Int), tokens l = [t0, a, b, c] → parseReg nreg a = .ok x → parseReg nreg b = .ok y →
      parseInt c = .ok v →
        (opcodeOf t0 = some .addi → decode nreg l = .ok (.addi x y v)) ∧
        (opcodeOf t0 = some .bne → decode nreg l = .ok (.bne x y v)) ∧
        (opcodeOf t0 = some .lw → decode nreg l = .ok (.lw x y v)) ∧
        (opcodeOf t0 = some .sw → decode nreg l = .ok (.sw x y v))) ∧
    (∀ v : Int, tokens l = [t0, a] → parseInt a = .ok v →
        (opcodeOf t0 = some .j → decode nreg l = .ok (.j v)) ∧
        (opcodeOf t0 = some .jal → 8 ≤ nreg → decode nreg l = .ok (.jal v)) ∧
        (opcodeOf t0 = some .cache → v = 0 → decode nreg l = .ok (.cache .disable)) ∧
        (opcodeOf t0 = some .cache → v = 1 → decode nreg l = .ok (.cache .enable)) ∧
        (opcodeOf t0 = some .cache → v = 2 → decode nreg l = .ok (.cache .flush))) ∧
    (tokens l = [t0] → opcodeOf t0 = some .halt → decode nreg l = .ok .halt)

/-- 30_encoding.md R136 (decision D19): `R` or `r` and digits is the register of their decimal value when that is below
NREG and out of range otherwise; every other token is malformed. -/
def Obligations.RegisterTokensReadAsTheRuleSays : Prop :=
  ∀ (nreg : Nat) (t : Line),
    (∀ (r : Char) (ds : Line), t = r :: ds → (r = 'R' ∨ r = 'r') → ds ≠ [] → (∀ c ∈ ds, '0' ≤ c ∧ c ≤ '9') →
      parseReg nreg t = if digitsValue ds < nreg then .ok (digitsValue ds) else .error .registerOutOfRange) ∧
    ((¬ ∃ (r : Char) (ds : Line), t = r :: ds ∧ (r = 'R' ∨ r = 'r') ∧ ds ≠ [] ∧ ∀ c ∈ ds, '0' ≤ c ∧ c ≤ '9') →
      parseReg nreg t = .error .badRegister)

/-- 30_encoding.md R137 (decision D19): an optional sign and digits is the integer they spell, of any magnitude; every
other token is malformed. The first three clauses say what a digit string spells: its positional decimal value. -/
def Obligations.IntegerTokensReadAsTheRuleSays : Prop :=
  digitsValue [] = 0 ∧
  (∀ (ds : Line) (d : Nat), d < 10 → digitsValue (ds ++ [Char.ofNat (48 + d)]) = 10 * digitsValue ds + d) ∧
  (∀ ds : Line, digitsValue ('0' :: ds) = digitsValue ds) ∧
  ∀ t : Line,
    (∀ ds : Line, ds ≠ [] → (∀ c ∈ ds, '0' ≤ c ∧ c ≤ '9') →
      (t = ds → parseInt t = .ok (digitsValue ds : Int)) ∧
      (t = '+' :: ds → parseInt t = .ok (digitsValue ds : Int)) ∧
      (t = '-' :: ds → parseInt t = .ok (-(digitsValue ds : Int)))) ∧
    ((¬ ∃ ds : Line, ds ≠ [] ∧ (∀ c ∈ ds, '0' ≤ c ∧ c ≤ '9') ∧ (t = ds ∨ t = '+' :: ds ∨ t = '-' :: ds)) →
      parseInt t = .error .badInteger)

/-- 30_encoding.md R139 (decision D17) and R140 (decision D21): a CACHE line whose integer operand is not 0, 1 or 2 is
skipped as reserved; a JAL line decodes only if NREG is at least 8, and is otherwise out of range. -/
def Obligations.CacheModeAndLinkRegisterAreChecked : Prop :=
  ∀ (nreg : Nat) (l t0 a : Line) (v : Int), trim l ≠ [] → tokens l = [t0, a] → parseInt a = .ok v →
    (opcodeOf t0 = some .cache → v ≠ 0 → v ≠ 1 → v ≠ 2 → decode nreg l = .error .reservedCacheMode) ∧
    (opcodeOf t0 = some .jal → decode nreg l = if 8 ≤ nreg then .ok (.jal v) else .error .registerOutOfRange)

/-! ### Values, addresses, construction -/

/-- 00_scope.md R12 (decision D5, general knowledge K2) and 40_arith.md R174: with XLEN = INF a value is itself, with a
finite width w the one value of the signed range that differs from it by a multiple of 2^w. -/
def Obligations.NormalisationIsTheSignedWrap : Prop :=
  ∀ (c : Config) (v : Int),
    (c.xlen = .inf → normValue c v = v) ∧
    ∀ w : Nat, c.xlen = .finite (w + 1) →
      -(((2 ^ w : Nat) : Int)) ≤ normValue c v ∧ normValue c v < ((2 ^ w : Nat) : Int) ∧
        ∃ q : Int, v = normValue c v + q * ((2 ^ (w + 1) : Nat) : Int)

/-- 20_memory.md R71 (decision D7): without an override BW is the least width of at least 8 that numbers every cell,
with one it is the override; construction fails when it cannot number every cell; the examples. -/
def Obligations.AddressWidthIsTheLeastThatFits : Prop :=
  (∀ c : Config, c.bwOverride = none →
    8 ≤ addressWidth c ∧ c.memSize ≤ 2 ^ addressWidth c ∧ ∀ w, 8 ≤ w → c.memSize ≤ 2 ^ w → addressWidth c ≤ w) ∧
  (∀ (c : Config) (w : Nat), c.bwOverride = some w → addressWidth c = w) ∧
  (∀ c : Config, 2 ^ addressWidth c < c.memSize → construct c = none) ∧
  ∀ c : Config, c.bwOverride = none →
    (c.memSize = 1 → addressWidth c = 8) ∧ (c.memSize = 100 → addressWidth c = 8) ∧
    (c.memSize = 256 → addressWidth c = 8) ∧ (c.memSize = 257 → addressWidth c = 9) ∧
    (c.memSize = 512 → addressWidth c = 9) ∧ (c.memSize = 1000 → addressWidth c = 10) ∧
    (c.memSize = 1024 → addressWidth c = 10) ∧ (c.memSize = 1025 → addressWidth c = 11)

/-- 00_scope.md R14 (general knowledge K1) and 20_memory.md R70, R72: the valid bus addresses are exactly the strings
`bin_BW(a)` of the cells, `val` reads the cell's number back, and character i of the string, from the left, is bit
BW-1-i of that number. -/
def Obligations.ValidAddressesAreTheCellStrings : Prop :=
  ∀ c : Config, legal c = true →
    (∀ s : Line, busValid c s = true ↔ ∃ a, a < c.memSize ∧ s = binBW c a) ∧
    (∀ a, a < c.memSize → bitsValue (binBW c a) = a) ∧
    ∀ a i, i < addressWidth c →
      (binBW c a)[i]? = some (if a.testBit (addressWidth c - 1 - i) then '1' else '0')

/-- 20_memory.md R72, R73, R74 (decision D7): an address of another shape, of another length or at or above MEM_SIZE
fails at the read and at the write port. -/
def Obligations.InvalidAddressesFailAtBothPorts : Prop :=
  ∀ (c : Config) (m : Memory) (s : Line) (v : Int),
    ((∃ ch ∈ s, ch ≠ '0' ∧ ch ≠ '1') ∨ s.length ≠ addressWidth c ∨ c.memSize ≤ bitsValue s) →
      busRead c m s = none ∧ busWrite c m s v = none

/-- 20_memory.md R76: a valid address never misses, and reads back what was written, normalised; every other valid
address reads what it read. -/
def Obligations.BusReadsBackWhatWasWritten : Prop :=
  ∀ (c : Config) (m : Memory) (s : Line) (v : Int), Memory.wf m = true → busValid c s = true →
    ∃ m', busWrite c m s v = some m' ∧ busRead c m' s = some (normValue c v) ∧
      (c.xlen = .inf → busRead c m' s = some v) ∧
      ∀ s', busValid c s' = true → s' ≠ s → busRead c m' s' = busRead c m s'

/-- 20_memory.md R75 and 70_reset_and_hazards.md R264: after the host's `Bus.clear()` every valid address reads 0, and
nothing but the cells changed. -/
def Obligations.BusClearZeroesEveryCell : Prop :=
  ∀ s : State, s.rs ≠ .running → ∃ t, hostAct .busClear s = some (t, .done) ∧
    (∀ a, busValid s.cfg a = true → busRead t.cfg t.mem a = some 0) ∧ { t with mem := s.mem } = s

/-- 70_reset_and_hazards.md R260 (decisions D7, D22) with `BW >= 1` from 00_scope.md R9 (log 15): construction gives
the reset state when every argument is legal and fails otherwise. -/
def Obligations.ConstructionRefusesIllegalArguments : Prop :=
  ∀ c : Config,
    ((1 ≤ c.nreg ∧ 1 ≤ c.cap ∧ 1 ≤ c.memSize ∧ 1 ≤ addressWidth c ∧ c.memSize ≤ 2 ^ addressWidth c ∧ 1 ≤ c.pcStep ∧
        ∀ w, c.xlen = .finite w → 2 ≤ w) →
      construct c = some (State.constructed c)) ∧
    ((c.nreg = 0 ∨ c.cap = 0 ∨ c.memSize = 0 ∨ addressWidth c = 0 ∨ 2 ^ addressWidth c < c.memSize ∨ c.pcStep = 0 ∨
        ∃ w, c.xlen = .finite w ∧ w < 2) →
      construct c = none)

/-- 70_reset_and_hazards.md R250 (decisions D11, D16, D24, D34): the state after construction with any arguments, and CE
of this hardware. -/
def Obligations.ConstructionLeavesTheResetState : Prop :=
  State.reset.ce = false ∧
  ∀ c : Config,
    (State.constructed c).regs.length = c.nreg ∧ (∀ k, readReg k (State.constructed c) = 0) ∧
    (State.constructed c).pc = 0 ∧ (State.constructed c).ce = c.cacheEnReset ∧
    (State.constructed c).statInstr = 0 ∧ (State.constructed c).statHits = 0 ∧ (State.constructed c).statMisses = 0 ∧
    (State.constructed c).rs = .idle ∧
    (State.constructed c).cache.table =
      (List.range c.cap).map (fun i => { key := .empty i, value := none, freq := 0, dirty := false }) ∧
    (c.evict = .lru → (State.constructed c).cache.recency = (List.range c.cap).map CacheKey.empty) ∧
    (∀ a, cellRead a (State.constructed c).mem = 0) ∧ (State.constructed c).cfg = c

/-! ### The Cache -/

/-- 20_memory.md R90 (decision D14): a lookup of a key that holds an integer answers it, adds 1 to the entry's counter
under LFU and moves the key to the end of the recency order under LRU; any other lookup answers none and changes
nothing. No value and no dirty flag changes. -/
def Obligations.LookupAnswersPresentKeys : Prop :=
  ∀ (c : Config) (k : Line) (ca : Cache),
    (cachedValue k ca = none → cacheLookup c k ca = (none, ca)) ∧
    ∀ v, cachedValue k ca = some v →
      (cacheLookup c k ca).1 = some v ∧
      (cacheLookup c k ca).2.table.map (fun e => (e.key, e.value, e.dirty)) =
        ca.table.map (fun e => (e.key, e.value, e.dirty)) ∧
      (c.evict = .lru → (cacheLookup c k ca).2.table = ca.table ∧
        (cacheLookup c k ca).2.recency = ca.recency.filter (fun x => x != .addr k) ++ [.addr k]) ∧
      (c.evict = .lfu → (cacheLookup c k ca).2.recency = ca.recency ∧
        (cacheLookup c k ca).2.table.map CacheEntry.freq =
          ca.table.map (fun e => if e.key = .addr k then e.freq + 1 else e.freq))

/-- 20_memory.md R91 (decisions D12, D13), R86, R94: after a store the key holds the value, normalised, and every other
key what it held unless it is the one victim; under LFU the key's counter is 1 more than it was, from 0 for a new key;
under write-back its entry is dirty. A store of a new key removes the victim's key from the insertion order and appends
the new one, a store of a present key evicts nothing and leaves the order as it was; the table keeps `CAP` entries. -/
def Obligations.StoreInsertsOrOverwrites : Prop :=
  ∀ (c : Config) (k : Line) (v : Int) (ca : Cache), 1 ≤ c.cap → Cache.Inv c ca →
    (∃ e, findEntry (.addr k) (cacheStore c k v ca).table = some e ∧ e.value = some (normValue c v) ∧
      (c.evict = .lfu → e.freq = ((findEntry (.addr k) ca.table).map CacheEntry.freq).getD 0 + 1) ∧
      (c.wpol = .writeBack → e.dirty = true) ∧ (c.wpol = .writeThrough → e.dirty = false)) ∧
    (∀ k', k' ≠ k → findEntry (.addr k') (cacheStore c k v ca).table =
      if storeVictim c (.addr k) ca = some (.addr k') then none else findEntry (.addr k') ca.table) ∧
    (cacheStore c k v ca).table.length = c.cap ∧
    (.addr k ∈ ca.table.map CacheEntry.key → storeVictim c (.addr k) ca = none ∧
      (cacheStore c k v ca).table.map CacheEntry.key = ca.table.map CacheEntry.key) ∧
    (.addr k ∉ ca.table.map CacheEntry.key → ∃ w, victim c ca = some w ∧ storeVictim c (.addr k) ca = some w ∧
      (cacheStore c k v ca).table.map CacheEntry.key =
        (ca.table.map CacheEntry.key).filter (fun x => x != w) ++ [.addr k])

/-- 20_memory.md R92 (decision D13), R97: the LFU victim has the smallest counter of the table and every entry before it
in insertion order a greater one; while the table holds a placeholder the victim is one. -/
def Obligations.LfuVictimIsTheEarliestLeastUsed : Prop :=
  ∀ (c : Config) (ca : Cache), c.evict = .lfu → ca.table ≠ [] →
    (∃ before e after, ca.table = before ++ e :: after ∧ victim c ca = some e.key ∧
      (∀ x ∈ before, e.freq < x.freq) ∧ ∀ x ∈ after, e.freq ≤ x.freq) ∧
    ∀ i, Cache.Inv c ca → .empty i ∈ ca.table.map CacheEntry.key → ∃ j, victim c ca = some (.empty j)

/-- 20_memory.md R93 (decision D14): under LRU a store of a new key evicts the first key of the recency order and puts
the new one at its end, and a store of a present key moves that key to the end. -/
def Obligations.LruStoreEvictsTheLeastRecent : Prop :=
  ∀ (c : Config) (k : Line) (v : Int) (ca : Cache), c.evict = .lru → 1 ≤ c.cap → Cache.Inv c ca →
    (.addr k ∉ ca.table.map CacheEntry.key → ∃ w rest, ca.recency = w :: rest ∧
      storeVictim c (.addr k) ca = some w ∧ (cacheStore c k v ca).recency = rest ++ [.addr k] ∧
      w ∉ (cacheStore c k v ca).table.map CacheEntry.key) ∧
    (.addr k ∈ ca.table.map CacheEntry.key →
      (cacheStore c k v ca).recency = ca.recency.filter (fun x => x != .addr k) ++ [.addr k])

/-! ### Instructions -/

/-- 40_arith.md R170: ADD. -/
def Obligations.AddWritesTheSum : Prop :=
  ∀ (s : State) (d a b : Nat), s.regs.length = s.cfg.nreg → d < s.cfg.nreg → a < s.cfg.nreg → b < s.cfg.nreg →
    ∃ t, exec (.add d a b) s = .next t ∧ readReg d t = normValue s.cfg (readReg a s + readReg b s) ∧
      t.pc = s.pc + s.cfg.pcStep ∧ onlyRegs [d] s t

/-- 40_arith.md R171: ADDI. -/
def Obligations.AddiWritesTheSumWithItsImmediate : Prop :=
  ∀ (s : State) (d a : Nat) (imm : Int), s.regs.length = s.cfg.nreg → d < s.cfg.nreg → a < s.cfg.nreg →
    ∃ t, exec (.addi d a imm) s = .next t ∧ readReg d t = normValue s.cfg (readReg a s + imm) ∧
      t.pc = s.pc + s.cfg.pcStep ∧ onlyRegs [d] s t

/-- 40_arith.md R172: SUB. -/
def Obligations.SubWritesTheDifference : Prop :=
  ∀ (s : State) (d a b : Nat), s.regs.length = s.cfg.nreg → d < s.cfg.nreg → a < s.cfg.nreg → b < s.cfg.nreg →
    ∃ t, exec (.sub d a b) s = .next t ∧ readReg d t = normValue s.cfg (readReg a s - readReg b s) ∧
      t.pc = s.pc + s.cfg.pcStep ∧ onlyRegs [d] s t

/-- 40_arith.md R173: SLT. With a legal XLEN both results are their own normal forms. -/
def Obligations.SltWritesOneOrZero : Prop :=
  ∀ (s : State) (d a b : Nat), legal s.cfg = true → s.regs.length = s.cfg.nreg → d < s.cfg.nreg → a < s.cfg.nreg →
    b < s.cfg.nreg →
    ∃ t, exec (.slt d a b) s = .next t ∧
      (readReg a s < readReg b s → readReg d t = 1) ∧ (readReg b s ≤ readReg a s → readReg d t = 0) ∧
      t.pc = s.pc + s.cfg.pcStep ∧ onlyRegs [d] s t

/-- 41_control.md R180 (decisions D1 to D4): BNE, not taken, taken, and taken to a negative next pc. -/
def Obligations.BneBranchesWhenNotEqual : Prop :=
  ∀ (s : State) (a b : Nat) (offset : Int), a < s.cfg.nreg → b < s.cfg.nreg →
    (readReg a s = readReg b s →
      ∃ t, exec (.bne a b offset) s = .next t ∧ t.pc = s.pc + s.cfg.pcStep ∧ onlyRegs [] s t) ∧
    (readReg a s ≠ readReg b s → 0 ≤ (s.pc : Int) + 4 + 4 * offset + s.cfg.pcStep →
      ∃ t, exec (.bne a b offset) s = .next t ∧ (t.pc : Int) = s.pc + 4 + 4 * offset + s.cfg.pcStep ∧
        onlyRegs [] s t) ∧
    (readReg a s ≠ readReg b s → (s.pc : Int) + 4 + 4 * offset + s.cfg.pcStep < 0 →
      exec (.bne a b offset) s =
        .next { s with rs := .faulted (.negativePc s.pc (s.pc + 4 + 4 * offset + s.cfg.pcStep)) })

/-- 41_control.md R182 (decisions D3, D4): J. -/
def Obligations.JumpSetsThePc : Prop :=
  ∀ (s : State) (target : Int),
    (0 ≤ target → ∃ t, exec (.j target) s = .next t ∧ (t.pc : Int) = 4 * target ∧ onlyRegs [] s t) ∧
    (target < 0 → exec (.j target) s = .next { s with rs := .faulted (.negativePc s.pc (4 * target)) })

/-- 41_control.md R184 (decisions D2, D3, D4): JAL where register 7 exists, linking `pc + 4`, or writing nothing. -/
def Obligations.JalLinksAndJumps : Prop :=
  ∀ (s : State) (target : Int), s.regs.length = s.cfg.nreg → 8 ≤ s.cfg.nreg →
    (0 ≤ target → ∃ t, exec (.jal target) s = .next t ∧ (t.pc : Int) = 4 * target ∧
      readReg 7 t = normValue s.cfg ((s.pc : Int) + 4) ∧ onlyRegs [7] s t) ∧
    (target < 0 → exec (.jal target) s = .next { s with rs := .faulted (.negativePc s.pc (4 * target)) })

/-- 42_loadstore.md R190 (decisions D6, D7, D8, D15): LW with CE false, on a hit, on a miss, and out of range. -/
def Obligations.LwLoadsThroughTheCacheOrTheBus : Prop :=
  ∀ (s : State) (b t : Nat) (offset : Int), legal s.cfg = true → s.regs.length = s.cfg.nreg → b < s.cfg.nreg →
    t < s.cfg.nreg →
    (∀ a : Nat, readReg b s + offset = a → a < s.cfg.memSize → s.ce = false →
      ∃ u, exec (.lw b t offset) s = .next u ∧ readReg t u = normValue s.cfg (cellRead a s.mem) ∧
        u.pc = s.pc + s.cfg.pcStep ∧ onlyRegs [t] s u) ∧
    (∀ (a : Nat) (v : Int), readReg b s + offset = a → a < s.cfg.memSize → s.ce = true →
      cachedValue (binBW s.cfg a) s.cache = some v →
      ∃ u, exec (.lw b t offset) s = .next u ∧ readReg t u = normValue s.cfg v ∧
        u.pc = s.pc + s.cfg.pcStep ∧ sameRegsBut [t] s u ∧ sameCells s u ∧ sameSetup s u ∧ u.ce = s.ce ∧
        u.cache = (cacheLookup s.cfg (binBW s.cfg a) s.cache).2 ∧ u.statHits = s.statHits + 1 ∧
        u.statMisses = s.statMisses ∧ u.statInstr = s.statInstr + 1) ∧
    (∀ a : Nat, readReg b s + offset = a → a < s.cfg.memSize → s.ce = true →
      cachedValue (binBW s.cfg a) s.cache = none →
      ∃ u, exec (.lw b t offset) s = .next u ∧ readReg t u = normValue s.cfg (cellRead a s.mem) ∧
        u.pc = s.pc + s.cfg.pcStep ∧ sameRegsBut [t] s u ∧ sameCells s u ∧ sameSetup s u ∧ u.ce = s.ce ∧
        u.cache = cacheStore s.cfg (binBW s.cfg a) (cellRead a s.mem) s.cache ∧ u.statHits = s.statHits ∧
        u.statMisses = s.statMisses + 1 ∧ u.statInstr = s.statInstr + 1) ∧
    ((readReg b s + offset < 0 ∨ (s.cfg.memSize : Int) ≤ readReg b s + offset) → s.cfg.onFatal = .stop →
      exec (.lw b t offset) s = .next { s with rs := .faulted (.invalidAddress s.pc (readReg b s + offset)) }) ∧
    ((readReg b s + offset < 0 ∨ (s.cfg.memSize : Int) ≤ readReg b s + offset) → s.cfg.onFatal = .skip →
      exec (.lw b t offset) s = .next { s with pc := s.pc + s.cfg.pcStep })

/-- 42_loadstore.md R193 (decisions D6, D7, D8, D10): SW in range, the bus always and the Cache when CE is true, and out
of range. The address stored to is `x[s] + offset`, and every other cell reads as before. -/
def Obligations.SwStoresToTheBusAndTheCache : Prop :=
  ∀ (s : State) (b t : Nat) (offset : Int), legal s.cfg = true → Memory.wf s.mem = true → b < s.cfg.nreg →
    t < s.cfg.nreg →
    (∀ a : Nat, readReg b s + offset = a → a < s.cfg.memSize →
      ∃ u, exec (.sw b t offset) s = .next u ∧ cellRead a u.mem = normValue s.cfg (readReg t s) ∧
        sameCellsBut a s u ∧ u.pc = s.pc + s.cfg.pcStep ∧ sameRegsBut [] s u ∧ sameSetup s u ∧ u.ce = s.ce ∧
        (s.ce = true → u.cache = cacheStore s.cfg (binBW s.cfg a) (readReg t s) s.cache) ∧
        (s.ce = false → u.cache = s.cache) ∧ u.statHits = s.statHits ∧ u.statMisses = s.statMisses ∧
        u.statInstr = s.statInstr + 1) ∧
    ((readReg b s + offset < 0 ∨ (s.cfg.memSize : Int) ≤ readReg b s + offset) → s.cfg.onFatal = .stop →
      exec (.sw b t offset) s = .next { s with rs := .faulted (.invalidAddress s.pc (readReg b s + offset)) }) ∧
    ((readReg b s + offset < 0 ∨ (s.cfg.memSize : Int) ≤ readReg b s + offset) → s.cfg.onFatal = .skip →
      exec (.sw b t offset) s = .next { s with pc := s.pc + s.cfg.pcStep })

/-- 43_system.md R200 (decisions D17, D18): CACHE modes 0, 1 and 2, each with everything it changes. -/
def Obligations.CacheModesActOneAtATime : Prop :=
  ∀ s : State,
    exec (.cache .disable) s =
      .next { s with ce := false, pc := s.pc + s.cfg.pcStep, statInstr := s.statInstr + 1 } ∧
    exec (.cache .enable) s =
      .next { s with ce := true, pc := s.pc + s.cfg.pcStep, statInstr := s.statInstr + 1 } ∧
    ∃ t, exec (.cache .flush) s = .next t ∧
      t.cache.table =
        (List.range s.cfg.cap).map (fun i => { key := .empty i, value := none, freq := 0, dirty := false }) ∧
      (s.cfg.evict = .lru → t.cache.recency = (List.range s.cfg.cap).map CacheKey.empty) ∧
      { t with cache := s.cache } = { s with pc := s.pc + s.cfg.pcStep, statInstr := s.statInstr + 1 }

/-- 43_system.md R202 (decision D3): HALT ends the run and changes nothing else. -/
def Obligations.HaltEndsTheRun : Prop :=
  ∀ s : State, exec .halt s = .next { s with rs := .halted }

/-- The model's reading of 30_encoding.md R136 and R140 for an instruction term no decode yields (log 7): an
instruction that names a register that does not exist is skipped. -/
def Obligations.InstructionOfAMissingRegisterIsSkipped : Prop :=
  ∀ (i : Instr) (s : State), i.wf s.cfg.nreg = false → exec i s = .next { s with pc := s.pc + s.cfg.pcStep }

/-! ### The step -/

/-- 10_state.md R46, R47, R53: a running machine whose line decodes runs the decoded instruction, and the step adds
nothing to it. -/
def Obligations.StepRunsTheDecodedInstruction : Prop :=
  ∀ (s : State) (line : Line) (i : Instr), s.rs = .running → s.program[s.pc]? = some line →
    decode s.cfg.nreg line = .ok i → step s = exec i s

/-- 60_exceptions.md R212: a line that does not decode is skipped: the pc takes the base advance, nothing else changes,
the reason is on the trace channel. -/
def Obligations.UndecodableLineIsSkipped : Prop :=
  ∀ (s : State) (line : Line) (r : SkipReason), s.rs = .running → s.program[s.pc]? = some line →
    decode s.cfg.nreg line = .error r →
    step s = .next { s with pc := s.pc + s.cfg.pcStep } ∧ stepEvents s = [.skip s.pc r]

/-- 10_state.md R45: at or past the end of the program the run completes and nothing else changes. -/
def Obligations.RunPastTheEndCompletes : Prop :=
  ∀ s : State, s.rs = .running → s.program.length ≤ s.pc → step s = .next { s with rs := .completed }

/-- 10_state.md R53, 60_exceptions.md R218 in the model's reading (log 5): no step is taken unless the run status is
running. -/
def Obligations.NoStepUnlessRunning : Prop :=
  ∀ s : State, s.rs ≠ .running → step s = .fault .notRunning

/-- A running machine always has a next state: no instruction, line or address stops it without one (10_state.md R53,
60_exceptions.md R210). -/
def Obligations.RunningMachineAlwaysSteps : Prop :=
  ∀ s : State, s.rs = .running → ∃ t, step s = .next t

/-- 10_state.md R51: the instruction counter grows by 1 exactly when a decoded instruction ends with Continue: not on a
skip, a HALT, the end of the run or a fatal-tier error. -/
def Obligations.InstrCounterCountsContinue : Prop :=
  ∀ (s t : State) , legal s.cfg = true → step s = .next t →
    (∀ i, fetch s = .run i → i ≠ .halt → ¬ raisesFatal i s → t.statInstr = s.statInstr + 1) ∧
    ((∀ i, fetch s = .run i → i = .halt ∨ raisesFatal i s) → t.statInstr = s.statInstr)

/-- 10_state.md R49 (decisions D1, D3, D9): the next pc of every outcome of a step, and `PC_STEP` of this hardware. -/
def Obligations.NextPcIsTheTables : Prop :=
  State.reset.cfg.pcStep = 1 ∧
  ∀ s t : State, legal s.cfg = true → step s = .next t →
    (fetch s = .ended → t.pc = s.pc) ∧
    (∀ r, fetch s = .skip r → t.pc = s.pc + s.cfg.pcStep) ∧
    (∀ i, fetch s = .run i → ¬ raisesFatal i s → (t.pc : Int) = continuePc i s) ∧
    (∀ i, fetch s = .run i → raisesFatal i s →
      (accessesMemory i = true → s.cfg.onFatal = .skip → t.pc = s.pc + s.cfg.pcStep) ∧
      ((accessesMemory i = false ∨ s.cfg.onFatal = .stop) → t.pc = s.pc))

/-- 60_exceptions.md R215 (decision D8): an instruction that raises a fatal-tier error writes no register, no CE, no
Cache entry, no cell and no counter. -/
def Obligations.FatalErrorWritesNothing : Prop :=
  ∀ (i : Instr) (s : State), i.wf s.cfg.nreg = true → raisesFatal i s →
    ∃ t, exec i s = .next t ∧ { t with pc := s.pc, rs := s.rs } = s

/-- 60_exceptions.md R220: a run stops only at HALT, past the end of the program, or at a fatal-tier error that stops. -/
def Obligations.RunStopsOnlyForThreeReasons : Prop :=
  ∀ s t : State, legal s.cfg = true → step s = .next t → t.rs ≠ .running →
    (fetch s = .ended ∧ t.rs = .completed) ∨ (fetch s = .run .halt ∧ t.rs = .halted) ∨
      ∃ i, fetch s = .run i ∧ raisesFatal i s ∧ (accessesMemory i = true → s.cfg.onFatal = .stop) ∧
        ∃ e, t.rs = .faulted e

/-- 00_scope.md R9 and 10_state.md R42: no step changes a construction argument or the program. -/
def Obligations.StepKeepsConfigurationAndProgram : Prop :=
  ∀ s t : State, step s = .next t → t.cfg = s.cfg ∧ t.program = s.program

/-- 10_state.md R33, the column of registers written: an instruction writes no other register. -/
def Obligations.InstructionsWriteOnlyTheirRegisters : Prop :=
  ∀ (i : Instr) (s t : State), exec i s = .next t → sameRegsBut (writtenRegs i) s t

/-- 20_memory.md R102: no instruction but SW changes a cell. -/
def Obligations.OnlySwChangesCells : Prop :=
  ∀ (i : Instr) (s t : State), (∀ b r offset, i ≠ .sw b r offset) → exec i s = .next t → sameCells s t

/-- 10_state.md R36, R39: no instruction but CACHE 0 and CACHE 1 changes CE. 42_loadstore.md R190, R193 and 43_system.md
R200 (other state written): no instruction but LW, SW and CACHE 2 changes the Cache. -/
def Obligations.CacheSideIsWrittenOnlyByItsInstructions : Prop :=
  ∀ (i : Instr) (s t : State), exec i s = .next t →
    (i ≠ .cache .disable → i ≠ .cache .enable → t.ce = s.ce) ∧
    ((∀ b r offset, i ≠ .lw b r offset) → (∀ b r offset, i ≠ .sw b r offset) → i ≠ .cache .flush → t.cache = s.cache)

/-- 10_state.md R37 (decision D30): no step decreases a counter, and the hit and miss counters change by an LW alone. -/
def Obligations.CountersNeverDecrease : Prop :=
  (∀ s t : State, step s = .next t →
    s.statInstr ≤ t.statInstr ∧ s.statHits ≤ t.statHits ∧ s.statMisses ≤ t.statMisses) ∧
  ∀ (i : Instr) (s t : State), (∀ b r offset, i ≠ .lw b r offset) → exec i s = .next t →
    t.statHits = s.statHits ∧ t.statMisses = s.statMisses

/-- The model's choice of events (log 13), where 60_exceptions.md R237 lets a model emit them or none: the trace shows the hit or the miss of every LW with CE true, and every
eviction its back-fill or an SW makes. -/
def Obligations.TraceShowsHitsMissesAndEvictions : Prop :=
  ∀ (s : State) (b t : Nat) (offset : Int) (a : Nat), legal s.cfg = true → s.ce = true →
    readReg b s + offset = a → a < s.cfg.memSize →
    (fetch s = .run (.lw b t offset) →
      (∀ v, cachedValue (binBW s.cfg a) s.cache = some v → stepEvents s = [.hit (binBW s.cfg a)]) ∧
      (cachedValue (binBW s.cfg a) s.cache = none → storeVictim s.cfg (.addr (binBW s.cfg a)) s.cache = none →
        stepEvents s = [.miss (binBW s.cfg a)]) ∧
      ∀ w, cachedValue (binBW s.cfg a) s.cache = none → storeVictim s.cfg (.addr (binBW s.cfg a)) s.cache = some w →
        stepEvents s = [.miss (binBW s.cfg a), .evict w]) ∧
    (fetch s = .run (.sw b t offset) →
      (storeVictim s.cfg (.addr (binBW s.cfg a)) s.cache = none → stepEvents s = []) ∧
      ∀ w, storeVictim s.cfg (.addr (binBW s.cfg a)) s.cache = some w → stepEvents s = [.evict w])

/-! ### Loads after loads and stores -/

/-- 42_loadstore.md R192: after an LW with CE true the key is present with the value loaded, and an LW of the same
address next is a hit with the same value. -/
def Obligations.LoadAfterLoadHits : Prop :=
  ∀ (s : State) (b t : Nat) (offset : Int) (a : Nat), s.Inv → b < s.cfg.nreg → t < s.cfg.nreg → s.ce = true →
    readReg b s + offset = a → a < s.cfg.memSize →
    ∃ u, exec (.lw b t offset) s = .next u ∧ cachedValue (binBW s.cfg a) u.cache = some (readReg t u) ∧
      ∀ (b' t' : Nat) (offset' : Int), b' < s.cfg.nreg → t' < s.cfg.nreg → readReg b' u + offset' = a →
        ∃ w, exec (.lw b' t' offset') u = .next w ∧ readReg t' w = readReg t u ∧
          w.statHits = u.statHits + 1 ∧ w.statMisses = u.statMisses

/-- 42_loadstore.md R195, 70_reset_and_hazards.md R275: after an SW the bus holds the value, with CE true the Cache too,
and an LW of the address, with CE as it then is, gives the value, except that an older entry is hit when CE was false
at the SW and is true at the LW. -/
def Obligations.LoadAfterStoreGivesTheValueOrTheStaleEntry : Prop :=
  ∀ (s : State) (b t : Nat) (offset : Int) (a : Nat) (ceAtLoad : Bool), s.Inv → b < s.cfg.nreg → t < s.cfg.nreg →
    readReg b s + offset = a → a < s.cfg.memSize →
    ∃ u, exec (.sw b t offset) s = .next u ∧ cellRead a u.mem = readReg t s ∧
      (s.ce = true → cachedValue (binBW s.cfg a) u.cache = some (readReg t s)) ∧
      ∀ (b' t' : Nat) (offset' : Int), b' < s.cfg.nreg → t' < s.cfg.nreg → readReg b' u + offset' = a →
        ∃ w, exec (.lw b' t' offset') (setCe ceAtLoad u) = .next w ∧
          readReg t' w =
            if s.ce = false ∧ ceAtLoad = true then (cachedValue (binBW s.cfg a) s.cache).getD (readReg t s)
            else readReg t s

/-- 43_system.md R201, 20_memory.md R108: after CACHE 2 every key is absent, and the next LW with CE true misses and
gives the bus's value. -/
def Obligations.FlushMakesTheNextLoadMiss : Prop :=
  ∀ s : State, s.Inv → s.ce = true →
    ∃ u, exec (.cache .flush) s = .next u ∧ (∀ k, cachedValue k u.cache = none) ∧
      ∀ (b t : Nat) (offset : Int) (a : Nat), b < s.cfg.nreg → t < s.cfg.nreg → readReg b u + offset = a →
        a < s.cfg.memSize →
        ∃ w, exec (.lw b t offset) u = .next w ∧ readReg t w = cellRead a s.mem ∧
          w.statMisses = s.statMisses + 1 ∧ w.statHits = s.statHits

/-! ### The host -/

/-- 70_reset_and_hazards.md R264: the host acts when no run is in progress, and only then. -/
def Obligations.HostActsOnlyBetweenRuns : Prop :=
  ∀ (op : HostOp) (s : State), (hostAct op s).isSome = true ↔ s.rs ≠ .running

/-- 10_state.md R52 (decision D28): `run(P)` sets the pc to 0 and the status to running, and keeps registers, CE, the
Cache, the cells and the counters; the program is its parameter (log 4). -/
def Obligations.RunKeepsEverythingButPcAndStatus : Prop :=
  ∀ (p : List Line) (s : State), s.rs ≠ .running →
    hostAct (.run p) s = some ({ s with program := p, pc := 0, rs := .running }, .done)

/-- 70_reset_and_hazards.md R263 (decision D23): a data line with a valid address and an integer, each trimmed, writes
that cell through the bus, any other line changes nothing, no line changes anything but the cells, and the lines are
applied in order. -/
def Obligations.PreloadWritesTheBusOnly : Prop :=
  (∀ s : State, preload [] s = s) ∧
  (∀ (s : State) (l : Line) (ls : List Line), preload (l :: ls) s = preload ls (preloadLine s l)) ∧
  (∀ (s : State) (l : Line), { preloadLine s l with mem := s.mem } = s) ∧
  (∀ (s : State) (address value : Line) (v : Int) (m : Memory), (∀ c ∈ address, c ≠ ',') →
    parseInt (trim value) = .ok v → busWrite s.cfg s.mem (trim address) v = some m →
    preloadLine s (address ++ ',' :: value) = { s with mem := m }) ∧
  (∀ (s : State) (address value : Line), (∀ c ∈ address, c ≠ ',') →
    ((∃ r, parseInt (trim value) = .error r) ∨ busValid s.cfg (trim address) = false) →
    preloadLine s (address ++ ',' :: value) = s) ∧
  ∀ (s : State) (l : Line), (∀ c ∈ l, c ≠ ',') → preloadLine s l = s

/-! ### Invariants and whole-machine rules -/

/-- Construction with legal arguments gives a state with the invariant, and so does State.reset, whose MEM_SIZE, CAP,
EVICT and WPOL are the model's choice (log 2). -/
def Obligations.ConstructionEstablishesTheInvariant : Prop :=
  (∀ c : Config, legal c = true → (State.constructed c).Inv) ∧ State.reset.Inv

/-- Every step keeps the invariant: the register file's size and normal values, the canonical form and range of the
cells, the Cache's shape (20_memory.md R80 to R86, R93), and what a stopped run's status says of it. -/
def Obligations.StepKeepsTheInvariant : Prop :=
  ∀ s t : State, s.Inv → step s = .next t → t.Inv

/-- Every host operation keeps the invariant. -/
def Obligations.HostKeepsTheInvariant : Prop :=
  ∀ (op : HostOp) (s t : State) (r : HostReply), s.Inv → hostAct op s = some (t, r) → t.Inv

/-- 20_memory.md R96, 70_reset_and_hazards.md R276: the write policy and the dirty flags change nothing else: from two
states that differ only in them, both step or both stop, and the next states differ only in them. -/
def Obligations.WritePolicyIsInvisible : Prop :=
  ∀ s t : State, sameButWritePolicy s t →
    (∀ s', step s = .next s' → ∃ t', step t = .next t' ∧ sameButWritePolicy s' t') ∧
    (step s = .fault .notRunning → step t = .fault .notRunning)

/-- 42_loadstore.md R195, 70_reset_and_hazards.md R275: a Cache coherent with the bus stays so at every step but an SW
with CE false, and while it is coherent an LW gives the cell's value whether CE is true or not. -/
def Obligations.CoherentCacheIsTransparent : Prop :=
  (∀ s t : State, s.Inv → coherent s → step s = .next t →
    (∀ b r offset, fetch s = .run (.sw b r offset) → s.ce = true) → coherent t) ∧
  ∀ (s : State) (b t : Nat) (offset : Int) (a : Nat), s.Inv → coherent s → b < s.cfg.nreg → t < s.cfg.nreg →
    readReg b s + offset = a → a < s.cfg.memSize →
    ∃ u, exec (.lw b t offset) s = .next u ∧ readReg t u = cellRead a s.mem
end

