-- ==== Sys2Proof/Laws/Memory.lean ====
section
/-! SUPPORT. The cells: read after write, and that every operation keeps the canonical form. -/

namespace Sys2Proof.Machine

/-! ### The canonical form -/

theorem Memory.wfFrom_nil (lo : Nat) : Memory.wfFrom lo [] = true := rfl

theorem Memory.wfFrom_cons {lo a : Nat} {v : Int} {m : Memory} :
    Memory.wfFrom lo ((a, v) :: m) = true ↔ lo ≤ a ∧ v ≠ unlistedCell ∧ Memory.wfFrom (a + 1) m = true := by
  simp [Memory.wfFrom, and_assoc]

/-- The form from a bound holds from every lower bound. -/
theorem Memory.wfFrom_mono {lo hi : Nat} {m : Memory} (h : Memory.wfFrom hi m = true) (hle : lo ≤ hi) :
    Memory.wfFrom lo m = true := by
  cases m with
  | nil => rfl
  | cons p m =>
    obtain ⟨a, v⟩ := p
    rw [Memory.wfFrom_cons] at h ⊢
    exact ⟨hle.trans h.1, h.2⟩

/-- Writing cell `a` keeps the form from every bound at or below `a`. -/
theorem cellWrite_wfFrom {a : Nat} (v : Int) : ∀ {lo : Nat} {m : Memory}, Memory.wfFrom lo m = true → lo ≤ a →
    Memory.wfFrom lo (cellWrite a v m) = true
  | lo, [], _, hlo => by
    by_cases hv : v = unlistedCell
    · simp [cellWrite, hv, Memory.wfFrom]
    · simp [cellWrite, hv, hlo, Memory.wfFrom]
  | lo, (b, w) :: m, h, hlo => by
    rw [Memory.wfFrom_cons] at h
    obtain ⟨hb, hw, hm⟩ := h
    rcases Nat.lt_trichotomy a b with hab | hab | hab
    · by_cases hv : v = unlistedCell
      · simp [cellWrite, hab, hv, Memory.wfFrom_cons, hb, hw, hm]
      · simp [cellWrite, hab, hv, Memory.wfFrom_cons, hlo, hw, hm, Nat.succ_le_of_lt hab]
    · subst hab
      by_cases hv : v = unlistedCell
      · simpa [cellWrite, hv] using Memory.wfFrom_mono hm (by omega)
      · simp [cellWrite, hv, Memory.wfFrom_cons, hb, hm]
    · have ih := cellWrite_wfFrom v hm (Nat.succ_le_of_lt hab)
      simp [cellWrite, Nat.lt_asymm hab, Nat.ne_of_gt hab, Memory.wfFrom_cons, hb, hw, ih]

/-- A cell write keeps the canonical form. -/
theorem cellWrite_wf {m : Memory} (a : Nat) (v : Int) (h : Memory.wf m = true) : Memory.wf (cellWrite a v m) = true :=
  cellWrite_wfFrom v h (Nat.zero_le a)

/-- The bus's write port keeps the canonical form. -/
theorem busWrite_wf {c : Config} {m m' : Memory} {k : Line} {v : Int} (h : busWrite c m k v = some m')
    (hm : Memory.wf m = true) : Memory.wf m' = true := by
  unfold busWrite at h
  split at h
  · cases h; exact cellWrite_wf _ _ hm
  · cases h

/-- The cleared bus is in canonical form. -/
theorem busClear_wf : Memory.wf busClear = true := rfl

/-- The memory after construction is in canonical form. -/
theorem constructed_mem_wf (c : Config) : Memory.wf (State.constructed c).mem = true := rfl

/-- The memory after reset is in canonical form. -/
theorem reset_mem_wf : Memory.wf State.reset.mem = true := rfl

/-! ### Read after write -/

/-- Below the form's bound every cell is unlisted. -/
theorem cellRead_below {a : Nat} : ∀ {lo : Nat} {m : Memory}, Memory.wfFrom lo m = true → a < lo →
    cellRead a m = unlistedCell
  | _, [], _, _ => rfl
  | lo, (b, w) :: m, h, ha => by
    rw [Memory.wfFrom_cons] at h
    have hab : a ≠ b := by omega
    simp only [cellRead, hab, if_false]
    exact cellRead_below h.2.2 (by omega)

theorem cellRead_cellWrite_same_from {a : Nat} (v : Int) : ∀ {lo : Nat} {m : Memory}, Memory.wfFrom lo m = true →
    cellRead a (cellWrite a v m) = v
  | _, [], _ => by
    by_cases hv : v = unlistedCell <;> simp [cellWrite, cellRead, hv]
  | lo, (b, w) :: m, h => by
    rw [Memory.wfFrom_cons] at h
    rcases Nat.lt_trichotomy a b with hab | hab | hab
    · by_cases hv : v = unlistedCell
      · simpa [cellWrite, hab, hv, cellRead, Nat.ne_of_lt hab] using cellRead_below h.2.2 (by omega)
      · simp [cellWrite, hab, hv, cellRead]
    · subst hab
      by_cases hv : v = unlistedCell
      · simpa [cellWrite, hv] using cellRead_below h.2.2 (by omega)
      · simp [cellWrite, hv, cellRead]
    · simp [cellWrite, Nat.lt_asymm hab, Nat.ne_of_gt hab, cellRead, cellRead_cellWrite_same_from v h.2.2]

/-- A cell reads back what was written to it. -/
theorem cellRead_cellWrite_same {m : Memory} (a : Nat) (v : Int) (h : Memory.wf m = true) :
    cellRead a (cellWrite a v m) = v :=
  cellRead_cellWrite_same_from v h

/-- A cell write leaves every other cell as it was, whatever the list. -/
theorem cellRead_cellWrite_ne {a b : Nat} (v : Int) (h : b ≠ a) : ∀ m : Memory,
    cellRead b (cellWrite a v m) = cellRead b m
  | [] => by
    by_cases hv : v = unlistedCell <;> simp [cellWrite, cellRead, hv, h]
  | (c, w) :: m => by
    have ih := cellRead_cellWrite_ne v h m
    unfold cellWrite
    split
    · split
      · rfl
      · simp [cellRead, h]
    · split
      · rename_i hac
        subst hac
        split <;> simp [cellRead, h]
      · simp [cellRead, ih]

/-- A cell no pair lists reads the default. -/
theorem cellRead_of_not_mem {a : Nat} : ∀ {m : Memory}, (∀ p ∈ m, p.1 ≠ a) → cellRead a m = unlistedCell
  | [], _ => rfl
  | (b, w) :: m, h => by
    have hb : a ≠ b := fun hab => h (b, w) (by simp) hab.symm
    simp only [cellRead, hb, if_false]
    exact cellRead_of_not_mem (fun p hp => h p (by simp [hp]))

/-- What a write lists is what it wrote or what was listed. -/
theorem mem_cellWrite {a : Nat} {v : Int} {p : Nat × Int} : ∀ {m : Memory}, p ∈ cellWrite a v m →
    p = (a, v) ∨ p ∈ m
  | [], h => by
    unfold cellWrite at h
    split at h <;> simp_all
  | (b, w) :: m, h => by
    unfold cellWrite at h
    split at h
    · split at h
      · exact .inr h
      · simpa using h
    · split at h
      · split at h
        · exact .inr (by simp [h])
        · rcases List.mem_cons.1 h with h | h
          · exact .inl h
          · exact .inr (by simp [h])
      · rcases List.mem_cons.1 h with h | h
        · exact .inr (by simp [h])
        · rcases mem_cellWrite h with h | h
          · exact .inl h
          · exact .inr (by simp [h])

/-- What a cell reads is the default or a listed value. -/
theorem cellRead_default_or_mem (a : Nat) : ∀ m : Memory, cellRead a m = unlistedCell ∨ (a, cellRead a m) ∈ m
  | [] => .inl rfl
  | (b, w) :: m => by
    by_cases h : a = b
    · subst h; exact .inr (by simp [cellRead])
    · rcases cellRead_default_or_mem a m with ih | ih
      · exact .inl (by simp [cellRead, h, ih])
      · exact .inr (by simp [cellRead, h, ih])

end Sys2Proof.Machine
end

