-- ==== Sys2Proof/Laws/Bus.lean ====
section
/-! SUPPORT. Address strings: rendering and reading back agree, and the engine's addresses pass the validator. -/

namespace Sys2Proof.Machine

theorem binBits_length : ∀ w a : Nat, (binBits w a).length = w
  | 0, _ => rfl
  | w + 1, a => by simp [binBits, binBits_length w a]

theorem binBits_all_isBit : ∀ w a : Nat, (binBits w a).all isBit = true
  | 0, _ => rfl
  | w + 1, a => by
    simp only [binBits, List.all_cons, binBits_all_isBit w a, Bool.and_true]
    split <;> rfl

theorem foldl_binBits : ∀ w a n : Nat,
    (binBits w a).foldl (fun n ch => 2 * n + (if ch = '1' then 1 else 0)) n = n * 2 ^ w + a % 2 ^ w
  | 0, a, n => by simp [binBits, Nat.mod_one]
  | w + 1, a, n => by
    have hbit : (if (if a / 2 ^ w % 2 = 1 then '1' else '0') = '1' then 1 else 0) = a / 2 ^ w % 2 := by
      rcases Nat.mod_two_eq_zero_or_one (a / 2 ^ w) with h | h <;> simp [h]
    rw [binBits, List.foldl_cons, hbit, foldl_binBits w a, Nat.mod_pow_succ, Nat.pow_succ]
    ring

/-- `val` of a rendering is the number modulo the width's power. -/
theorem bitsValue_binBits (w a : Nat) : bitsValue (binBits w a) = a % 2 ^ w := by
  simp [bitsValue, foldl_binBits]

/-- `val(bin_BW(a)) = a` for an address below `2^BW` (00_scope.md R14). -/
theorem bitsValue_binBW {c : Config} {a : Nat} (h : a < 2 ^ addressWidth c) : bitsValue (binBW c a) = a := by
  rw [binBW, bitsValue_binBits, Nat.mod_eq_of_lt h]

/-- The cells fit the address width of a legal configuration. -/
theorem memSize_le_of_legal {c : Config} (h : legal c = true) : c.memSize ≤ 2 ^ addressWidth c := by
  simp only [legal, Bool.and_eq_true, decide_eq_true_eq] at h
  exact h.1.1.2

/-- A cell's rendered address is valid (20_memory.md R70, R72). -/
theorem busValid_binBW {c : Config} {a : Nat} (hc : legal c = true) (h : a < c.memSize) :
    busValid c (binBW c a) = true := by
  have hv := bitsValue_binBW (Nat.lt_of_lt_of_le h (memSize_le_of_legal hc))
  have hall : (binBW c a).all isBit = true := binBits_all_isBit _ _
  have hlen : (binBW c a).length = addressWidth c := binBits_length _ _
  simp only [busValid, hv, hall, hlen, h, beq_self_eq_true, decide_true, Bool.and_self]

/-- The engine renders exactly the addresses in range (20_memory.md R77). -/
theorem renderAddr_some {c : Config} {a : Int} (h0 : 0 ≤ a) (h : a < c.memSize) :
    renderAddr c a = some (binBW c a.toNat) := by
  simp [renderAddr, h0, h]

/-- The engine rejects every address out of range (20_memory.md R77). -/
theorem renderAddr_none {c : Config} {a : Int} (h : a < 0 ∨ (c.memSize : Int) ≤ a) : renderAddr c a = none := by
  unfold renderAddr
  split
  · omega
  · rfl

/-- The read port at a cell's rendered address. -/
theorem busRead_binBW {c : Config} {m : Memory} {a : Nat} (hc : legal c = true) (h : a < c.memSize) :
    busRead c m (binBW c a) = some (cellRead a m) := by
  simp [busRead, busValid_binBW hc h, bitsValue_binBW (Nat.lt_of_lt_of_le h (memSize_le_of_legal hc))]

/-- The write port at a cell's rendered address. -/
theorem busWrite_binBW {c : Config} {m : Memory} {a : Nat} {v : Int} (hc : legal c = true) (h : a < c.memSize) :
    busWrite c m (binBW c a) v = some (cellWrite a (normValue c v) m) := by
  simp [busWrite, busValid_binBW hc h, bitsValue_binBW (Nat.lt_of_lt_of_le h (memSize_le_of_legal hc))]

/-- `norm` answers a normalised value (00_scope.md R12). -/
theorem normValue_idem (c : Config) (v : Int) : normValue c (normValue c v) = normValue c v := by
  unfold normValue
  split
  · rfl
  · rename_i w _
    simp only [sub_add_cancel, Int.emod_emod_of_dvd _ (dvd_refl _)]

end Sys2Proof.Machine
end

