-- ==== Sys2Proof/Laws/Cache.lean ====
section
/-! SUPPORT. What the Cache's ports do to the entry of each key: lookup, store, eviction, flush. -/

namespace Sys2Proof.Machine

/-! ### Entries by key -/

/-- A change of an entry that keeps its key. -/
def KeepsKey (f : CacheEntry → CacheEntry) : Prop := ∀ e, (f e).key = e.key

@[simp] theorem bumpFreq_key (c : Config) (e : CacheEntry) : (bumpFreq c e).key = e.key := by
  unfold bumpFreq; split <;> rfl

@[simp] theorem bumpFreq_value (c : Config) (e : CacheEntry) : (bumpFreq c e).value = e.value := by
  unfold bumpFreq; split <;> rfl

@[simp] theorem bumpFreq_dirty (c : Config) (e : CacheEntry) : (bumpFreq c e).dirty = e.dirty := by
  unfold bumpFreq; split <;> rfl

@[simp] theorem markDirty_key (c : Config) (e : CacheEntry) : (markDirty c e).key = e.key := by
  unfold markDirty; split <;> rfl

@[simp] theorem markDirty_value (c : Config) (e : CacheEntry) : (markDirty c e).value = e.value := by
  unfold markDirty; split <;> rfl

@[simp] theorem markDirty_freq (c : Config) (e : CacheEntry) : (markDirty c e).freq = e.freq := by
  unfold markDirty; split <;> rfl

@[simp] theorem setValue_key (v : Int) (e : CacheEntry) : (setValue v e).key = e.key := rfl

@[simp] theorem setValue_value (v : Int) (e : CacheEntry) : (setValue v e).value = some v := rfl

theorem updateEntry_length (key : CacheKey) (f : CacheEntry → CacheEntry) (t : List CacheEntry) :
    (updateEntry key f t).length = t.length := by
  simp [updateEntry]

/-- Changing an entry in place keeps the keys and their order. -/
theorem updateEntry_keys {key : CacheKey} {f : CacheEntry → CacheEntry} (hf : KeepsKey f) (t : List CacheEntry) :
    (updateEntry key f t).map CacheEntry.key = t.map CacheEntry.key := by
  simp only [updateEntry, List.map_map]
  refine List.map_congr_left fun e _ => ?_
  by_cases h : e.key = key
  · simpa [h] using hf e
  · simp [h]

/-- The changed key finds the changed entry. -/
theorem findEntry_updateEntry_same {key : CacheKey} {f : CacheEntry → CacheEntry} (hf : KeepsKey f) :
    ∀ t : List CacheEntry, findEntry key (updateEntry key f t) = (findEntry key t).map f
  | [] => rfl
  | e :: t => by
    have ih := findEntry_updateEntry_same hf (key := key) t
    simp only [findEntry, updateEntry, List.map_cons] at ih ⊢
    by_cases h : e.key = key
    · have hk : (f e).key = key := (hf e).trans h
      simp [h, hk]
    · simp [h, ih]

/-- Every other key finds what it found. -/
theorem findEntry_updateEntry_ne {key k : CacheKey} {f : CacheEntry → CacheEntry} (hf : KeepsKey f) (hk : k ≠ key) :
    ∀ t : List CacheEntry, findEntry k (updateEntry key f t) = findEntry k t
  | [] => rfl
  | e :: t => by
    have ih := findEntry_updateEntry_ne hf hk t
    simp only [findEntry, updateEntry, List.map_cons, List.find?_cons] at ih ⊢
    by_cases h : e.key = key
    · have h1 : (f e).key = key := (hf e).trans h
      have h2 : (key == k) = false := by simpa using Ne.symm hk
      simp [h, h1, h2, ih]
    · simp [h, ih]

/-- An entry found is an entry of the table under that key. -/
theorem findEntry_some {key : CacheKey} {t : List CacheEntry} {e : CacheEntry} (h : findEntry key t = some e) :
    e ∈ t ∧ e.key = key :=
  ⟨List.mem_of_find?_eq_some h, by simpa using List.find?_some h⟩

/-- No entry is found exactly where the key is none of the table's. -/
theorem findEntry_none_iff {key : CacheKey} {t : List CacheEntry} :
    findEntry key t = none ↔ key ∉ t.map CacheEntry.key := by
  simp [findEntry]

/-- With distinct keys, an entry of the table is the one its key finds. -/
theorem findEntry_of_mem {t : List CacheEntry} (hd : (t.map CacheEntry.key).Nodup) {e : CacheEntry} (he : e ∈ t) :
    findEntry e.key t = some e := by
  induction t with
  | nil => cases he
  | cons a t ih =>
    simp only [List.map_cons, List.nodup_cons] at hd
    rcases List.mem_cons.1 he with rfl | he
    · simp [findEntry]
    · have hne : a.key ≠ e.key := fun h => hd.1 (h ▸ List.mem_map_of_mem he)
      simpa [findEntry, hne] using ih hd.2 he

/-! ### Eviction -/

/-- The least used entry is an entry of the table. -/
theorem leastUsed_mem : ∀ {t : List CacheEntry} {m : CacheEntry}, leastUsed t = some m → m ∈ t
  | [], m, h => by cases h
  | e :: t, m, h => by
    unfold leastUsed at h
    split at h
    · cases h; simp
    · rename_i m' hm
      split at h
      · cases h; exact List.mem_cons_of_mem _ (leastUsed_mem hm)
      · cases h; simp

/-- A table with an entry has a least used one. -/
theorem leastUsed_isSome : ∀ {t : List CacheEntry}, t ≠ [] → (leastUsed t).isSome
  | [], h => absurd rfl h
  | e :: t, _ => by
    unfold leastUsed
    split
    · rfl
    · split <;> rfl

/-- The evicted key is found no more. -/
theorem findEntry_evictKey_same (key : CacheKey) (ca : Cache) : findEntry key (evictKey key ca).table = none := by
  simp [findEntry_none_iff, evictKey]

/-- Every other key finds what it found. -/
theorem findEntry_evictKey_ne {key k : CacheKey} (hk : k ≠ key) (ca : Cache) :
    findEntry k (evictKey key ca).table = findEntry k ca.table := by
  simp only [findEntry, evictKey, List.find?_filter]
  congr 1
  funext e
  by_cases h : e.key = k
  · subst h; simp [hk]
  · simp [h]

/-- A key that finds an entry makes no store evict. -/
theorem makeRoom_present {c : Config} {key : CacheKey} {ca : Cache} {e : CacheEntry}
    (h : findEntry key ca.table = some e) : makeRoom c key ca = ca := by
  simp [makeRoom, storeVictim, storeEvicts, h]

/-- After the eviction each key finds what it found, but for the victim. -/
theorem findEntry_makeRoom (c : Config) (key k : CacheKey) (ca : Cache) :
    findEntry k (makeRoom c key ca).table = if storeVictim c key ca = some k then none else findEntry k ca.table := by
  unfold makeRoom
  split
  · rename_i h; simp [h]
  · rename_i v h
    by_cases hk : v = k
    · subst hk; simp [h, findEntry_evictKey_same]
    · have hne : k ≠ v := fun he => hk he.symm
      simp [h, hk, findEntry_evictKey_ne hne]

/-! ### Store -/

theorem findEntry_append_fresh {key : CacheKey} {t : List CacheEntry} {e : CacheEntry} (hn : findEntry key t = none)
    (he : e.key = key) : findEntry key (t ++ [e]) = some e := by
  simp only [findEntry] at hn ⊢
  simp [List.find?_append, hn, he]

theorem findEntry_append_ne {key k : CacheKey} {t : List CacheEntry} {e : CacheEntry} (he : e.key = key) (hk : k ≠ key) :
    findEntry k (t ++ [e]) = findEntry k t := by
  have h : e.key ≠ k := fun h => hk (h ▸ he)
  simp [findEntry, List.find?_append, h]

/-- The stored key finds an entry with the stored value. -/
theorem findEntry_putEntry_same (key : CacheKey) (v : Int) (t : List CacheEntry) :
    ∃ e, findEntry key (putEntry key v t) = some e ∧ e.value = some v := by
  unfold putEntry
  split
  · rename_i h
    obtain ⟨e, he⟩ := Option.isSome_iff_exists.1 h
    rw [findEntry_updateEntry_same (f := setValue v) (fun _ => rfl), he]
    exact ⟨_, rfl, rfl⟩
  · rename_i h
    exact ⟨_, findEntry_append_fresh (by simpa using h) rfl, rfl⟩

/-- Every other key finds what it found. -/
theorem findEntry_putEntry_ne {key k : CacheKey} (hk : k ≠ key) (v : Int) (t : List CacheEntry) :
    findEntry k (putEntry key v t) = findEntry k t := by
  unfold putEntry
  split
  · exact findEntry_updateEntry_ne (f := setValue v) (fun _ => rfl) hk t
  · exact findEntry_append_ne rfl hk

theorem keepsKey_store (c : Config) : KeepsKey (fun e => markDirty c (bumpFreq c e)) := fun e => by simp

theorem keepsKey_bump (c : Config) : KeepsKey (bumpFreq c) := fun e => by simp

/-- The stored key holds the stored value, normalised (20_memory.md R91). -/
theorem cachedValue_cacheStore_same (c : Config) (k : Line) (v : Int) (ca : Cache) :
    cachedValue k (cacheStore c k v ca) = some (normValue c v) := by
  obtain ⟨e, he, hv⟩ := findEntry_putEntry_same (.addr k) (normValue c v) (makeRoom c (.addr k) ca).table
  simp [cachedValue, cacheStore, findEntry_updateEntry_same (keepsKey_store c), he, hv]

/-- Every other key holds what it held, but for the victim (20_memory.md R91, R94). -/
theorem cachedValue_cacheStore_ne {k k' : Line} (c : Config) (v : Int) (ca : Cache) (h : k' ≠ k) :
    cachedValue k' (cacheStore c k v ca) =
      if storeVictim c (.addr k) ca = some (.addr k') then none else cachedValue k' ca := by
  have hk : CacheKey.addr k' ≠ .addr k := fun he => h (by injection he)
  simp only [cachedValue, cacheStore, findEntry_updateEntry_ne (keepsKey_store c) hk, findEntry_putEntry_ne hk,
    findEntry_makeRoom]
  split <;> rfl

/-! ### Lookup -/

/-- A lookup is a hit exactly where the key holds a value, and the Cache is unchanged on a miss (20_memory.md R90). -/
theorem cacheLookup_cases (c : Config) (k : Line) (ca : Cache) :
    (cachedValue k ca = none ∧ cacheLookup c k ca = (none, ca)) ∨
      ∃ v, cachedValue k ca = some v ∧ (cacheLookup c k ca).1 = some v ∧
        (cacheLookup c k ca).2.table = updateEntry (.addr k) (bumpFreq c) ca.table ∧
        (cacheLookup c k ca).2.recency = touchRecency c (.addr k) ca.recency := by
  unfold cacheLookup
  cases h : cachedValue k ca with
  | none => simp
  | some v => simp

/-- A lookup answers the value the key holds. -/
theorem cacheLookup_fst (c : Config) (k : Line) (ca : Cache) : (cacheLookup c k ca).1 = cachedValue k ca := by
  unfold cacheLookup; split <;> simp [*]

/-- A lookup changes no key's value (20_memory.md R90). -/
theorem cachedValue_cacheLookup (c : Config) (k k' : Line) (ca : Cache) :
    cachedValue k' (cacheLookup c k ca).2 = cachedValue k' ca := by
  rcases cacheLookup_cases c k ca with ⟨_, h⟩ | ⟨v, _, _, ht, _⟩
  · rw [h]
  · unfold cachedValue
    rw [ht]
    by_cases hk : k' = k
    · subst hk
      rw [findEntry_updateEntry_same (keepsKey_bump c)]
      cases findEntry (.addr k') ca.table <;> simp
    · rw [findEntry_updateEntry_ne (keepsKey_bump c) (fun he => hk (by injection he))]

/-! ### Flush -/

/-- After a flush every key is absent (20_memory.md R95). -/
theorem cachedValue_cacheFlush (c : Config) (k : Line) : cachedValue k (cacheFlush c) = none := by
  have h : findEntry (.addr k) (cacheFlush c).table = none := by
    rw [findEntry_none_iff]
    simp [cacheFlush, flushedCache, placeholder]
  simp [cachedValue, h]

end Sys2Proof.Machine
end

