-- ==== Sys2Proof/Laws/CacheInv.lean ====
section
/-! SUPPORT. The Cache's ports keep the Cache's invariant. -/

namespace Sys2Proof.Machine

/-! ### Keys and the recency order -/

theorem evictKey_keys (key : CacheKey) (ca : Cache) :
    (evictKey key ca).table.map CacheEntry.key = (ca.table.map CacheEntry.key).filter (fun k => k != key) := by
  simp only [evictKey, List.filter_map]
  rfl

/-- Moving a key of a list without repeats to the end permutes it. -/
theorem filter_append_perm_of_mem {k : CacheKey} {l : List CacheKey} (hd : l.Nodup) (hk : k ∈ l) :
    (l.filter (fun x => x != k) ++ [k]).Perm l := by
  rw [← hd.erase_eq_filter]
  exact List.perm_append_comm.trans (List.perm_cons_erase hk).symm

/-- Removing a key that is not there changes nothing. -/
theorem filter_ne_of_not_mem {k : CacheKey} {l : List CacheKey} (hk : k ∉ l) : l.filter (fun x => x != k) = l :=
  List.filter_eq_self.2 fun x hx => by
    have : x ≠ k := fun h => hk (h ▸ hx)
    simpa using this

theorem putEntry_keys_present {key : CacheKey} {t : List CacheEntry} (v : Int) (h : (findEntry key t).isSome = true) :
    (putEntry key v t).map CacheEntry.key = t.map CacheEntry.key := by
  simp only [putEntry, h, if_true]
  exact updateEntry_keys (f := setValue v) (fun _ => rfl) t

theorem putEntry_keys_absent {key : CacheKey} {t : List CacheEntry} (v : Int) (h : findEntry key t = none) :
    (putEntry key v t).map CacheEntry.key = t.map CacheEntry.key ++ [key] := by
  simp [putEntry, h]

theorem cacheStore_keys (c : Config) (k : Line) (v : Int) (ca : Cache) :
    (cacheStore c k v ca).table.map CacheEntry.key =
      (putEntry (.addr k) (normValue c v) (makeRoom c (.addr k) ca).table).map CacheEntry.key := by
  simp only [cacheStore]
  exact updateEntry_keys (keepsKey_store c) _

/-- The victim's key is a key of the table, when the Cache has its invariant and some entry (20_memory.md R92, R93). -/
theorem victim_mem {c : Config} {ca : Cache} (h : Cache.Inv c ca) (hne : ca.table ≠ []) :
    ∃ v, victim c ca = some v ∧ v ∈ ca.table.map CacheEntry.key := by
  have ho := h.order
  unfold Cache.recencyFits at ho
  unfold victim
  cases he : c.evict with
  | lfu =>
    obtain ⟨m, hm⟩ := Option.isSome_iff_exists.1 (leastUsed_isSome hne)
    exact ⟨m.key, by simp [hm], List.mem_map_of_mem (leastUsed_mem hm)⟩
  | lru =>
    rw [he] at ho
    cases hr : ca.recency with
    | nil =>
      rw [hr] at ho
      exact absurd (List.map_eq_nil_iff.1 ho.symm.eq_nil) hne
    | cons v r => exact ⟨v, rfl, ho.subset (by simp [hr])⟩

/-! ### Entries -/

/-- An entry of the updated table is an entry as it was under another key, or the changed entry of the key. -/
theorem mem_updateEntry {key : CacheKey} {f : CacheEntry → CacheEntry} {t : List CacheEntry} {e : CacheEntry}
    (h : e ∈ updateEntry key f t) : (e ∈ t ∧ e.key ≠ key) ∨ ∃ e0 ∈ t, e0.key = key ∧ e = f e0 := by
  obtain ⟨e0, h0, rfl⟩ := List.mem_map.1 h
  by_cases hk : e0.key = key
  · exact .inr ⟨e0, h0, hk, by simp [hk]⟩
  · exact .inl (by simp [hk, h0])

/-- An entry after the put is an entry as it was under another key, an overwritten one, or the fresh one. -/
theorem mem_putEntry {key : CacheKey} {v : Int} {t : List CacheEntry} {e : CacheEntry} (h : e ∈ putEntry key v t) :
    (e ∈ t ∧ e.key ≠ key) ∨ (∃ e0 ∈ t, e0.key = key ∧ e = setValue v e0) ∨
      e = { key := key, value := some v, freq := 0, dirty := false } := by
  unfold putEntry at h
  split at h
  · rcases mem_updateEntry h with h | h
    · exact .inl h
    · exact .inr (.inl h)
  · rename_i hn
    have hn' : key ∉ t.map CacheEntry.key := findEntry_none_iff.1 (by simpa using hn)
    rcases List.mem_append.1 h with h | h
    · exact .inl ⟨h, fun hk => hn' (hk ▸ List.mem_map_of_mem h)⟩
    · exact .inr (.inr (by simpa using h))

/-- What the counter of an address entry is, and its dirty flag, from `fits`. -/
theorem fits_addr {c : Config} {e : CacheEntry} {k : Line} (hk : e.key = .addr k) : e.fits c = true ↔
    ∃ v, e.value = some v ∧ normValue c v = v ∧ (c.evict = .lfu → 1 ≤ e.freq) ∧ (c.evict = .lru → e.freq = 0) ∧
      (c.wpol = .writeBack → e.dirty = true) ∧ (c.wpol = .writeThrough → e.dirty = false) := by
  unfold CacheEntry.fits
  rw [hk]
  cases e.value <;> cases c.evict <;> cases c.wpol <;> simp [and_assoc]

/-- A store's entry fits after its counter and dirty flag are set. -/
theorem fits_stored {c : Config} {k : Line} {v : Int} {e : CacheEntry} (hk : e.key = .addr k)
    (hv : e.value = some (normValue c v)) (hf : c.evict = .lru → e.freq = 0)
    (hd : c.wpol = .writeThrough → e.dirty = false) : (markDirty c (bumpFreq c e)).fits c = true := by
  rw [fits_addr (k := k) (by simp [hk])]
  refine ⟨normValue c v, by simp [hv], normValue_idem c v, ?_, ?_, ?_, ?_⟩
  · intro h; simp [bumpFreq, h]
  · intro h; simpa [bumpFreq, h] using hf h
  · intro h; simp [markDirty, h]
  · intro h; simpa [markDirty, h] using hd h

/-- A hit's entry still fits with its counter raised. -/
theorem fits_bumped {c : Config} {k : Line} {e : CacheEntry} (hk : e.key = .addr k) (h : e.fits c = true) :
    (bumpFreq c e).fits c = true := by
  rw [fits_addr hk] at h
  obtain ⟨v, hv, hn, hl, hr, hb, ht⟩ := h
  rw [fits_addr (k := k) (by simp [hk])]
  refine ⟨v, by simp [hv], hn, ?_, ?_, by simpa using hb, by simpa using ht⟩
  · intro he; simp [bumpFreq, he]
  · intro he; simpa [bumpFreq, he] using hr he

theorem mem_makeRoom {c : Config} {key : CacheKey} {ca : Cache} {e : CacheEntry} (h : e ∈ (makeRoom c key ca).table) :
    e ∈ ca.table := by
  unfold makeRoom at h
  split at h
  · exact h
  · exact List.mem_of_mem_filter h

/-! ### The three ports -/

/-- The flushed Cache has its invariant (20_memory.md R95). -/
theorem flushedCache_inv (c : Config) : Cache.Inv c (flushedCache c) where
  full := by simp [flushedCache]
  distinct := by
    have h : (flushedCache c).table.map CacheEntry.key = placeholderKeys c.cap := by
      simp [flushedCache, placeholderKeys, placeholder]
    rw [h]
    exact List.nodup_range.map fun i j h => by injection h
  entries := by
    intro e he
    obtain ⟨i, hi, rfl⟩ := List.mem_map.1 he
    simpa [CacheEntry.fits, placeholder] using hi
  order := by
    unfold Cache.recencyFits
    cases h : c.evict with
    | lfu => simp [flushedCache, h]
    | lru =>
      have hk : (flushedCache c).recency = (flushedCache c).table.map CacheEntry.key := by
        simp [flushedCache, h, placeholderKeys, placeholder]
      simp only [hk, List.Perm.refl]

/-- A lookup keeps the Cache's invariant. -/
theorem cacheLookup_inv {c : Config} {ca : Cache} (k : Line) (h : Cache.Inv c ca) :
    Cache.Inv c (cacheLookup c k ca).2 := by
  rcases cacheLookup_cases c k ca with ⟨_, hl⟩ | ⟨v, hv, _, ht, hr⟩
  · rw [hl]; exact h
  · have hkeys := updateEntry_keys (key := .addr k) (keepsKey_bump c) ca.table
    refine ⟨?_, ?_, ?_, ?_⟩
    · rw [ht, updateEntry_length]; exact h.full
    · rw [ht, hkeys]; exact h.distinct
    · intro e he
      rw [ht] at he
      rcases mem_updateEntry he with ⟨he, _⟩ | ⟨e0, h0, hk, rfl⟩
      · exact h.entries e he
      · exact fits_bumped hk (h.entries e0 h0)
    · have ho := h.order
      unfold Cache.recencyFits touchRecency at *
      cases he : c.evict with
      | lfu => rw [he] at ho hr; rw [hr]; exact ho
      | lru =>
        rw [he] at ho hr
        simp only [hr, ht, hkeys]
        have hmem : CacheKey.addr k ∈ ca.table.map CacheEntry.key := by
          by_contra hn
          simp [cachedValue, findEntry_none_iff.2 hn] at hv
        exact (filter_append_perm_of_mem (ho.nodup_iff.2 h.distinct) (ho.symm.subset hmem)).trans ho

/-- The keys and the recency order a store leaves: the key present and nothing evicted, or one victim gone and the key
at the end (20_memory.md R91). -/
theorem cacheStore_keys_cases {c : Config} {ca : Cache} (k : Line) (v : Int) (hcap : 1 ≤ c.cap) (h : Cache.Inv c ca) :
    (.addr k ∈ ca.table.map CacheEntry.key ∧ makeRoom c (.addr k) ca = ca ∧
        (cacheStore c k v ca).table.map CacheEntry.key = ca.table.map CacheEntry.key) ∨
      ∃ w, w ∈ ca.table.map CacheEntry.key ∧ CacheKey.addr k ∉ ca.table.map CacheEntry.key ∧
        makeRoom c (.addr k) ca = evictKey w ca ∧
        (cacheStore c k v ca).table.map CacheEntry.key =
          (ca.table.map CacheEntry.key).filter (fun x => x != w) ++ [.addr k] := by
  cases hf : findEntry (.addr k) ca.table with
  | some e =>
    have hm : makeRoom c (.addr k) ca = ca := makeRoom_present hf
    refine .inl ⟨?_, hm, ?_⟩
    · obtain ⟨he, hk⟩ := findEntry_some hf
      exact hk ▸ List.mem_map_of_mem he
    · rw [cacheStore_keys, hm, putEntry_keys_present _ (by simp [hf])]
  | none =>
    have hne : ca.table ≠ [] := by
      intro hnil
      have := h.full
      rw [hnil] at this
      simp at this
      omega
    obtain ⟨w, hw, hmem⟩ := victim_mem h hne
    have hev : storeEvicts c (.addr k) ca = true := by simp [storeEvicts, hf, h.full]
    have hm : makeRoom c (.addr k) ca = evictKey w ca := by simp [makeRoom, storeVictim, hev, hw]
    have habs : CacheKey.addr k ∉ ca.table.map CacheEntry.key := findEntry_none_iff.1 hf
    refine .inr ⟨w, hmem, habs, hm, ?_⟩
    have hroom : findEntry (.addr k) (evictKey w ca).table = none := by
      rw [findEntry_none_iff, evictKey_keys]
      exact fun hin => habs (List.mem_of_mem_filter hin)
    rw [cacheStore_keys, hm, putEntry_keys_absent _ hroom, evictKey_keys]

/-- A store keeps the Cache's invariant, the table's length among it (20_memory.md R86). -/
theorem cacheStore_inv {c : Config} {ca : Cache} (k : Line) (v : Int) (hcap : 1 ≤ c.cap) (h : Cache.Inv c ca) :
    Cache.Inv c (cacheStore c k v ca) := by
  have hent : ∀ e ∈ (cacheStore c k v ca).table, e.fits c = true := by
    intro e he
    rcases mem_updateEntry he with ⟨he, hne⟩ | ⟨e0, h0, hk, rfl⟩
    · rcases mem_putEntry he with ⟨he, _⟩ | ⟨e1, h1, hk1, rfl⟩ | rfl
      · exact h.entries e (mem_makeRoom he)
      · exact absurd hk1 hne
      · exact absurd rfl hne
    · rcases mem_putEntry h0 with ⟨_, hne⟩ | ⟨e1, h1, hk1, rfl⟩ | rfl
      · exact absurd hk hne
      · obtain ⟨_, _, _, _, hr, _, ht⟩ := (fits_addr hk1).1 (h.entries e1 (mem_makeRoom h1))
        exact fits_stored hk rfl hr ht
      · exact fits_stored hk rfl (fun _ => rfl) (fun _ => rfl)
  have ho := h.order
  have hrec : (cacheStore c k v ca).recency = touchRecency c (.addr k) (makeRoom c (.addr k) ca).recency := rfl
  unfold Cache.recencyFits at ho
  have hlen : ∀ t : List CacheEntry, t.length = (t.map CacheEntry.key).length := fun t => by simp
  rcases cacheStore_keys_cases k v hcap h with ⟨hin, hm, hkeys⟩ | ⟨w, hw, habs, hm, hkeys⟩
  · refine ⟨?_, hkeys ▸ h.distinct, hent, ?_⟩
    · rw [hlen, hkeys, ← hlen]; exact h.full
    · unfold Cache.recencyFits
      rw [hrec, hm]
      unfold touchRecency
      cases he : c.evict with
      | lfu => rw [he] at ho; simpa using ho
      | lru =>
        rw [he] at ho
        simp only [hkeys]
        exact (filter_append_perm_of_mem (ho.nodup_iff.2 h.distinct) (ho.symm.subset hin)).trans ho
  · have herase : (ca.table.map CacheEntry.key).filter (fun x => x != w) = (ca.table.map CacheEntry.key).erase w :=
      (h.distinct.erase_eq_filter w).symm
    refine ⟨?_, ?_, hent, ?_⟩
    · rw [hlen, hkeys, herase, List.length_append, List.length_erase_of_mem hw, ← hlen, h.full]
      simp
      omega
    · rw [hkeys]
      refine List.nodup_append.2 ⟨h.distinct.filter _, by simp, ?_⟩
      intro a ha b hb hab
      rw [List.mem_singleton] at hb
      exact habs (hb ▸ hab ▸ List.mem_of_mem_filter ha)
    · unfold Cache.recencyFits
      rw [hrec, hm]
      unfold touchRecency
      cases he : c.evict with
      | lfu => rw [he] at ho; simp [evictKey, ho]
      | lru =>
        rw [he] at ho
        have hev : (evictKey w ca).recency = ca.recency.filter (fun x => x != w) := rfl
        have hnot : CacheKey.addr k ∉ ca.recency.filter (fun x => x != w) := fun hin =>
          habs (ho.subset (List.mem_of_mem_filter hin))
        simp only [hkeys, hev, filter_ne_of_not_mem hnot]
        exact (ho.filter _).append_right _

end Sys2Proof.Machine
end

