-- ==== Sys2Proof/Laws/Decode.lean ====
section
/-! SUPPORT. Tokens and decimal numerals: splitting undoes joining, reading digits undoes printing them. -/

namespace Sys2Proof

/-! ### Trim -/

/-- A line without whitespace is its own trim. -/
theorem trim_of_noSpace {l : Line} (h : ∀ c ∈ l, isSpace c = false) : trim l = l := by
  have hdrop : ∀ m : Line, (∀ c ∈ m, isSpace c = false) → m.dropWhile isSpace = m := by
    intro m hm
    cases m with
    | nil => rfl
    | cons c m => simp [List.dropWhile, hm c (by simp)]
  rw [trim, hdrop l h, hdrop l.reverse (by simpa using h), List.reverse_reverse]

/-! ### Split and join -/

theorem splitComma_ne_nil (l : Line) : splitComma l ≠ [] := by
  cases l with
  | nil => simp [splitComma]
  | cons c l =>
    unfold splitComma
    split
    · simp
    · split <;> simp

/-- A token without a comma is one token. -/
theorem splitComma_of_noComma : ∀ {t : Line}, (∀ c ∈ t, c ≠ ',') → splitComma t = [t]
  | [], _ => rfl
  | c :: t, h => by
    have hc : c ≠ ',' := h c (by simp)
    have ih := splitComma_of_noComma (t := t) (fun d hd => h d (by simp [hd]))
    simp [splitComma, hc, ih]

/-- The token before a comma is split off. -/
theorem splitComma_append : ∀ {t : Line} (r : Line), (∀ c ∈ t, c ≠ ',') → splitComma (t ++ ',' :: r) = t :: splitComma r
  | [], r, _ => by simp [splitComma]
  | c :: t, r, h => by
    have hc : c ≠ ',' := h c (by simp)
    have ih := splitComma_append (t := t) r (fun d hd => h d (by simp [hd]))
    simp [splitComma, hc, ih]

/-- Splitting undoes joining. -/
theorem splitComma_joinComma : ∀ {ts : List Line}, ts ≠ [] → (∀ t ∈ ts, ∀ c ∈ t, c ≠ ',') →
    splitComma (joinComma ts) = ts
  | [], h, _ => absurd rfl h
  | [t], _, h => splitComma_of_noComma (h t (by simp))
  | t :: u :: ts, _, h => by
    rw [joinComma, splitComma_append _ (h t (by simp)),
      splitComma_joinComma (by simp) (fun v hv => h v (by simp [hv]))]

/-- A token of neither whitespace nor commas. -/
def PlainToken (t : Line) : Prop := ∀ c ∈ t, isSpace c = false ∧ c ≠ ','

theorem joinComma_chars {c : Char} : ∀ {ts : List Line}, c ∈ joinComma ts → c = ',' ∨ ∃ t ∈ ts, c ∈ t
  | [], h => by cases h
  | [t], h => .inr ⟨t, by simp, h⟩
  | t :: u :: ts, h => by
    rw [joinComma, List.mem_append, List.mem_cons] at h
    rcases h with h | h | h
    · exact .inr ⟨t, by simp, h⟩
    · exact .inl h
    · rcases joinComma_chars h with h | ⟨v, hv, hc⟩
      · exact .inl h
      · exact .inr ⟨v, by simp [hv], hc⟩

/-- The tokens of joined plain tokens are those tokens. -/
theorem tokens_joinComma {ts : List Line} (hne : ts ≠ []) (h : ∀ t ∈ ts, PlainToken t) : tokens (joinComma ts) = ts := by
  have hsp : ∀ c ∈ joinComma ts, isSpace c = false := by
    intro c hc
    rcases joinComma_chars hc with rfl | ⟨t, ht, hct⟩
    · rfl
    · exact (h t ht c hct).1
  rw [tokens, trim_of_noSpace hsp, splitComma_joinComma hne (fun t ht c hc => (h t ht c hc).2)]
  exact (List.map_congr_left fun t ht => trim_of_noSpace fun c hc => (h t ht c hc).1).trans (List.map_id ts)

/-! ### Decimal numerals -/

theorem digitChar_spec : ∀ d < 10, isDigit (digitChar d) = true ∧ (digitChar d).toNat - 48 = d := by decide

theorem isDigit_plain {c : Char} (h : isDigit c = true) : isSpace c = false ∧ c ≠ ',' := by
  simp only [isDigit, Bool.and_eq_true, decide_eq_true_eq] at h
  constructor
  · simp only [isSpace, Bool.or_eq_false_iff, beq_eq_false_iff_ne, Bool.and_eq_false_iff, decide_eq_false_iff_not]
    omega
  · rintro rfl
    have : ','.toNat = 44 := rfl
    omega

theorem natDigitsFrom_chars {c : Char} : ∀ {fuel n : Nat} {acc : Line}, c ∈ natDigitsFrom fuel n acc →
    isDigit c = true ∨ c ∈ acc
  | 0, _, _, h => .inr h
  | fuel + 1, n, acc, h => by
    unfold natDigitsFrom at h
    split at h
    · rename_i hn
      rcases List.mem_cons.1 h with rfl | h
      · exact .inl (digitChar_spec n hn).1
      · exact .inr h
    · rcases natDigitsFrom_chars h with h | h
      · exact .inl h
      · rcases List.mem_cons.1 h with rfl | h
        · exact .inl (digitChar_spec _ (Nat.mod_lt _ (by decide))).1
        · exact .inr h

theorem natDigitsFrom_ne_nil : ∀ {fuel n : Nat} {acc : Line}, 0 < fuel ∨ acc ≠ [] → natDigitsFrom fuel n acc ≠ []
  | 0, _, _, h => by simpa [natDigitsFrom] using h
  | fuel + 1, n, acc, _ => by
    unfold natDigitsFrom
    split
    · simp
    · exact natDigitsFrom_ne_nil (.inr (by simp))

/-- A printed numeral is one or more digits and nothing else. -/
theorem isDigits_natDigits (n : Nat) : isDigits (natDigits n) = true := by
  have hne : natDigits n ≠ [] := natDigitsFrom_ne_nil (.inl (Nat.succ_pos n))
  simp only [isDigits, Bool.and_eq_true, Bool.not_eq_true', List.isEmpty_eq_false_iff, List.all_eq_true]
  refine ⟨hne, fun c hc => ?_⟩
  rcases natDigitsFrom_chars hc with h | h
  · exact h
  · cases h

theorem foldl_natDigitsFrom : ∀ {fuel n : Nat} {acc : Line}, n < fuel →
    (natDigitsFrom fuel n acc).foldl (fun n c => 10 * n + (c.toNat - 48)) 0 =
      acc.foldl (fun n c => 10 * n + (c.toNat - 48)) n
  | 0, _, _, h => absurd h (Nat.not_lt_zero _)
  | fuel + 1, n, acc, h => by
    unfold natDigitsFrom
    split
    · rename_i hn
      simp [(digitChar_spec n hn).2]
    · have hd : (digitChar (n % 10)).toNat - 48 = n % 10 := (digitChar_spec _ (Nat.mod_lt _ (by decide))).2
      have hn : 10 * (n / 10) + n % 10 = n := Nat.div_add_mod n 10
      rw [foldl_natDigitsFrom (by omega), List.foldl_cons, hd, hn]

/-- Reading a printed numeral gives the number back. -/
theorem digitsValue_natDigits (n : Nat) : digitsValue (natDigits n) = n :=
  foldl_natDigitsFrom (Nat.lt_succ_self n)

/-! ### The tokens of the printer are plain -/

theorem natDigits_plain (n : Nat) : PlainToken (natDigits n) := by
  have h := isDigits_natDigits n
  simp only [isDigits, Bool.and_eq_true, List.all_eq_true] at h
  exact fun c hc => isDigit_plain (h.2 c hc)

theorem cons_plain {c : Char} {t : Line} (hc : isSpace c = false ∧ c ≠ ',') (h : PlainToken t) : PlainToken (c :: t) := by
  intro d hd
  rcases List.mem_cons.1 hd with rfl | hd
  · exact hc
  · exact h d hd

theorem regToken_plain (k : Nat) : PlainToken (regToken k) := cons_plain (by decide) (natDigits_plain k)

theorem intToken_plain : ∀ v : Int, PlainToken (intToken v)
  | .ofNat n => natDigits_plain n
  | .negSucc n => cons_plain (by decide) (natDigits_plain (n + 1))

theorem cacheModeToken_plain (mode : CacheMode) : PlainToken (cacheModeToken mode) := by
  cases mode <;> exact cons_plain (by decide) (fun _ h => by cases h)

theorem spelling_plain (op : Opcode) : PlainToken op.spelling := by
  have h : op.spelling.all (fun c => !isSpace c && c != ',') = true := by cases op <;> rfl
  intro c hc
  simpa using List.all_eq_true.1 h c hc

end Sys2Proof
end

