-- ==== Sys2Proof/Laws/State.lean ====
section
/-! SUPPORT. What each update of State does to each field, and to a register read. -/

namespace Sys2Proof.Machine

/-! ### setPc -/

@[simp] theorem setPc_cfg (n : Nat) (s : State) : (setPc n s).cfg = s.cfg := rfl
@[simp] theorem setPc_program (n : Nat) (s : State) : (setPc n s).program = s.program := rfl
@[simp] theorem setPc_regs (n : Nat) (s : State) : (setPc n s).regs = s.regs := rfl
@[simp] theorem setPc_pc (n : Nat) (s : State) : (setPc n s).pc = n := rfl
@[simp] theorem setPc_ce (n : Nat) (s : State) : (setPc n s).ce = s.ce := rfl
@[simp] theorem setPc_statInstr (n : Nat) (s : State) : (setPc n s).statInstr = s.statInstr := rfl
@[simp] theorem setPc_statHits (n : Nat) (s : State) : (setPc n s).statHits = s.statHits := rfl
@[simp] theorem setPc_statMisses (n : Nat) (s : State) : (setPc n s).statMisses = s.statMisses := rfl
@[simp] theorem setPc_rs (n : Nat) (s : State) : (setPc n s).rs = s.rs := rfl
@[simp] theorem setPc_cache (n : Nat) (s : State) : (setPc n s).cache = s.cache := rfl
@[simp] theorem setPc_mem (n : Nat) (s : State) : (setPc n s).mem = s.mem := rfl
@[simp] theorem readReg_setPc (i : Nat) (n : Nat) (s : State) : readReg i (setPc n s) = readReg i s := rfl

/-! ### setRs -/

@[simp] theorem setRs_cfg (r : RunStatus) (s : State) : (setRs r s).cfg = s.cfg := rfl
@[simp] theorem setRs_program (r : RunStatus) (s : State) : (setRs r s).program = s.program := rfl
@[simp] theorem setRs_regs (r : RunStatus) (s : State) : (setRs r s).regs = s.regs := rfl
@[simp] theorem setRs_pc (r : RunStatus) (s : State) : (setRs r s).pc = s.pc := rfl
@[simp] theorem setRs_ce (r : RunStatus) (s : State) : (setRs r s).ce = s.ce := rfl
@[simp] theorem setRs_statInstr (r : RunStatus) (s : State) : (setRs r s).statInstr = s.statInstr := rfl
@[simp] theorem setRs_statHits (r : RunStatus) (s : State) : (setRs r s).statHits = s.statHits := rfl
@[simp] theorem setRs_statMisses (r : RunStatus) (s : State) : (setRs r s).statMisses = s.statMisses := rfl
@[simp] theorem setRs_rs (r : RunStatus) (s : State) : (setRs r s).rs = r := rfl
@[simp] theorem setRs_cache (r : RunStatus) (s : State) : (setRs r s).cache = s.cache := rfl
@[simp] theorem setRs_mem (r : RunStatus) (s : State) : (setRs r s).mem = s.mem := rfl
@[simp] theorem readReg_setRs (i : Nat) (r : RunStatus) (s : State) : readReg i (setRs r s) = readReg i s := rfl

/-! ### setCe -/

@[simp] theorem setCe_cfg (b : Bool) (s : State) : (setCe b s).cfg = s.cfg := rfl
@[simp] theorem setCe_program (b : Bool) (s : State) : (setCe b s).program = s.program := rfl
@[simp] theorem setCe_regs (b : Bool) (s : State) : (setCe b s).regs = s.regs := rfl
@[simp] theorem setCe_pc (b : Bool) (s : State) : (setCe b s).pc = s.pc := rfl
@[simp] theorem setCe_ce (b : Bool) (s : State) : (setCe b s).ce = b := rfl
@[simp] theorem setCe_statInstr (b : Bool) (s : State) : (setCe b s).statInstr = s.statInstr := rfl
@[simp] theorem setCe_statHits (b : Bool) (s : State) : (setCe b s).statHits = s.statHits := rfl
@[simp] theorem setCe_statMisses (b : Bool) (s : State) : (setCe b s).statMisses = s.statMisses := rfl
@[simp] theorem setCe_rs (b : Bool) (s : State) : (setCe b s).rs = s.rs := rfl
@[simp] theorem setCe_cache (b : Bool) (s : State) : (setCe b s).cache = s.cache := rfl
@[simp] theorem setCe_mem (b : Bool) (s : State) : (setCe b s).mem = s.mem := rfl
@[simp] theorem readReg_setCe (i : Nat) (b : Bool) (s : State) : readReg i (setCe b s) = readReg i s := rfl

/-! ### setCache -/

@[simp] theorem setCache_cfg (ca : Cache) (s : State) : (setCache ca s).cfg = s.cfg := rfl
@[simp] theorem setCache_program (ca : Cache) (s : State) : (setCache ca s).program = s.program := rfl
@[simp] theorem setCache_regs (ca : Cache) (s : State) : (setCache ca s).regs = s.regs := rfl
@[simp] theorem setCache_pc (ca : Cache) (s : State) : (setCache ca s).pc = s.pc := rfl
@[simp] theorem setCache_ce (ca : Cache) (s : State) : (setCache ca s).ce = s.ce := rfl
@[simp] theorem setCache_statInstr (ca : Cache) (s : State) : (setCache ca s).statInstr = s.statInstr := rfl
@[simp] theorem setCache_statHits (ca : Cache) (s : State) : (setCache ca s).statHits = s.statHits := rfl
@[simp] theorem setCache_statMisses (ca : Cache) (s : State) : (setCache ca s).statMisses = s.statMisses := rfl
@[simp] theorem setCache_rs (ca : Cache) (s : State) : (setCache ca s).rs = s.rs := rfl
@[simp] theorem setCache_cache (ca : Cache) (s : State) : (setCache ca s).cache = ca := rfl
@[simp] theorem setCache_mem (ca : Cache) (s : State) : (setCache ca s).mem = s.mem := rfl
@[simp] theorem readReg_setCache (i : Nat) (ca : Cache) (s : State) : readReg i (setCache ca s) = readReg i s := rfl

/-! ### setMem -/

@[simp] theorem setMem_cfg (m : Memory) (s : State) : (setMem m s).cfg = s.cfg := rfl
@[simp] theorem setMem_program (m : Memory) (s : State) : (setMem m s).program = s.program := rfl
@[simp] theorem setMem_regs (m : Memory) (s : State) : (setMem m s).regs = s.regs := rfl
@[simp] theorem setMem_pc (m : Memory) (s : State) : (setMem m s).pc = s.pc := rfl
@[simp] theorem setMem_ce (m : Memory) (s : State) : (setMem m s).ce = s.ce := rfl
@[simp] theorem setMem_statInstr (m : Memory) (s : State) : (setMem m s).statInstr = s.statInstr := rfl
@[simp] theorem setMem_statHits (m : Memory) (s : State) : (setMem m s).statHits = s.statHits := rfl
@[simp] theorem setMem_statMisses (m : Memory) (s : State) : (setMem m s).statMisses = s.statMisses := rfl
@[simp] theorem setMem_rs (m : Memory) (s : State) : (setMem m s).rs = s.rs := rfl
@[simp] theorem setMem_cache (m : Memory) (s : State) : (setMem m s).cache = s.cache := rfl
@[simp] theorem setMem_mem (m : Memory) (s : State) : (setMem m s).mem = m := rfl
@[simp] theorem readReg_setMem (i : Nat) (m : Memory) (s : State) : readReg i (setMem m s) = readReg i s := rfl

/-! ### setProgram -/

@[simp] theorem setProgram_cfg (p : List Line) (s : State) : (setProgram p s).cfg = s.cfg := rfl
@[simp] theorem setProgram_program (p : List Line) (s : State) : (setProgram p s).program = p := rfl
@[simp] theorem setProgram_regs (p : List Line) (s : State) : (setProgram p s).regs = s.regs := rfl
@[simp] theorem setProgram_pc (p : List Line) (s : State) : (setProgram p s).pc = s.pc := rfl
@[simp] theorem setProgram_ce (p : List Line) (s : State) : (setProgram p s).ce = s.ce := rfl
@[simp] theorem setProgram_statInstr (p : List Line) (s : State) : (setProgram p s).statInstr = s.statInstr := rfl
@[simp] theorem setProgram_statHits (p : List Line) (s : State) : (setProgram p s).statHits = s.statHits := rfl
@[simp] theorem setProgram_statMisses (p : List Line) (s : State) : (setProgram p s).statMisses = s.statMisses := rfl
@[simp] theorem setProgram_rs (p : List Line) (s : State) : (setProgram p s).rs = s.rs := rfl
@[simp] theorem setProgram_cache (p : List Line) (s : State) : (setProgram p s).cache = s.cache := rfl
@[simp] theorem setProgram_mem (p : List Line) (s : State) : (setProgram p s).mem = s.mem := rfl
@[simp] theorem readReg_setProgram (i : Nat) (p : List Line) (s : State) : readReg i (setProgram p s) = readReg i s := rfl

/-! ### countInstr -/

@[simp] theorem countInstr_cfg (s : State) : (countInstr s).cfg = s.cfg := rfl
@[simp] theorem countInstr_program (s : State) : (countInstr s).program = s.program := rfl
@[simp] theorem countInstr_regs (s : State) : (countInstr s).regs = s.regs := rfl
@[simp] theorem countInstr_pc (s : State) : (countInstr s).pc = s.pc := rfl
@[simp] theorem countInstr_ce (s : State) : (countInstr s).ce = s.ce := rfl
@[simp] theorem countInstr_statInstr (s : State) : (countInstr s).statInstr = s.statInstr + 1 := rfl
@[simp] theorem countInstr_statHits (s : State) : (countInstr s).statHits = s.statHits := rfl
@[simp] theorem countInstr_statMisses (s : State) : (countInstr s).statMisses = s.statMisses := rfl
@[simp] theorem countInstr_rs (s : State) : (countInstr s).rs = s.rs := rfl
@[simp] theorem countInstr_cache (s : State) : (countInstr s).cache = s.cache := rfl
@[simp] theorem countInstr_mem (s : State) : (countInstr s).mem = s.mem := rfl
@[simp] theorem readReg_countInstr (i : Nat) (s : State) : readReg i (countInstr s) = readReg i s := rfl

/-! ### countHit -/

@[simp] theorem countHit_cfg (s : State) : (countHit s).cfg = s.cfg := rfl
@[simp] theorem countHit_program (s : State) : (countHit s).program = s.program := rfl
@[simp] theorem countHit_regs (s : State) : (countHit s).regs = s.regs := rfl
@[simp] theorem countHit_pc (s : State) : (countHit s).pc = s.pc := rfl
@[simp] theorem countHit_ce (s : State) : (countHit s).ce = s.ce := rfl
@[simp] theorem countHit_statInstr (s : State) : (countHit s).statInstr = s.statInstr := rfl
@[simp] theorem countHit_statHits (s : State) : (countHit s).statHits = s.statHits + 1 := rfl
@[simp] theorem countHit_statMisses (s : State) : (countHit s).statMisses = s.statMisses := rfl
@[simp] theorem countHit_rs (s : State) : (countHit s).rs = s.rs := rfl
@[simp] theorem countHit_cache (s : State) : (countHit s).cache = s.cache := rfl
@[simp] theorem countHit_mem (s : State) : (countHit s).mem = s.mem := rfl
@[simp] theorem readReg_countHit (i : Nat) (s : State) : readReg i (countHit s) = readReg i s := rfl

/-! ### countMiss -/

@[simp] theorem countMiss_cfg (s : State) : (countMiss s).cfg = s.cfg := rfl
@[simp] theorem countMiss_program (s : State) : (countMiss s).program = s.program := rfl
@[simp] theorem countMiss_regs (s : State) : (countMiss s).regs = s.regs := rfl
@[simp] theorem countMiss_pc (s : State) : (countMiss s).pc = s.pc := rfl
@[simp] theorem countMiss_ce (s : State) : (countMiss s).ce = s.ce := rfl
@[simp] theorem countMiss_statInstr (s : State) : (countMiss s).statInstr = s.statInstr := rfl
@[simp] theorem countMiss_statHits (s : State) : (countMiss s).statHits = s.statHits := rfl
@[simp] theorem countMiss_statMisses (s : State) : (countMiss s).statMisses = s.statMisses + 1 := rfl
@[simp] theorem countMiss_rs (s : State) : (countMiss s).rs = s.rs := rfl
@[simp] theorem countMiss_cache (s : State) : (countMiss s).cache = s.cache := rfl
@[simp] theorem countMiss_mem (s : State) : (countMiss s).mem = s.mem := rfl
@[simp] theorem readReg_countMiss (i : Nat) (s : State) : readReg i (countMiss s) = readReg i s := rfl

/-! ### writeReg -/

@[simp] theorem writeReg_cfg (k : Nat) (v : Int) (s : State) : (writeReg k v s).cfg = s.cfg := rfl
@[simp] theorem writeReg_program (k : Nat) (v : Int) (s : State) : (writeReg k v s).program = s.program := rfl
@[simp] theorem writeReg_regs (k : Nat) (v : Int) (s : State) : (writeReg k v s).regs = s.regs.set k (normValue s.cfg v) := rfl
@[simp] theorem writeReg_pc (k : Nat) (v : Int) (s : State) : (writeReg k v s).pc = s.pc := rfl
@[simp] theorem writeReg_ce (k : Nat) (v : Int) (s : State) : (writeReg k v s).ce = s.ce := rfl
@[simp] theorem writeReg_statInstr (k : Nat) (v : Int) (s : State) : (writeReg k v s).statInstr = s.statInstr := rfl
@[simp] theorem writeReg_statHits (k : Nat) (v : Int) (s : State) : (writeReg k v s).statHits = s.statHits := rfl
@[simp] theorem writeReg_statMisses (k : Nat) (v : Int) (s : State) : (writeReg k v s).statMisses = s.statMisses := rfl
@[simp] theorem writeReg_rs (k : Nat) (v : Int) (s : State) : (writeReg k v s).rs = s.rs := rfl
@[simp] theorem writeReg_cache (k : Nat) (v : Int) (s : State) : (writeReg k v s).cache = s.cache := rfl
@[simp] theorem writeReg_mem (k : Nat) (v : Int) (s : State) : (writeReg k v s).mem = s.mem := rfl

/-! ### complete -/

@[simp] theorem complete_cfg (n : Nat) (s : State) : (complete n s).cfg = s.cfg := rfl
@[simp] theorem complete_program (n : Nat) (s : State) : (complete n s).program = s.program := rfl
@[simp] theorem complete_regs (n : Nat) (s : State) : (complete n s).regs = s.regs := rfl
@[simp] theorem complete_pc (n : Nat) (s : State) : (complete n s).pc = n := rfl
@[simp] theorem complete_ce (n : Nat) (s : State) : (complete n s).ce = s.ce := rfl
@[simp] theorem complete_statInstr (n : Nat) (s : State) : (complete n s).statInstr = s.statInstr + 1 := rfl
@[simp] theorem complete_statHits (n : Nat) (s : State) : (complete n s).statHits = s.statHits := rfl
@[simp] theorem complete_statMisses (n : Nat) (s : State) : (complete n s).statMisses = s.statMisses := rfl
@[simp] theorem complete_rs (n : Nat) (s : State) : (complete n s).rs = s.rs := rfl
@[simp] theorem complete_cache (n : Nat) (s : State) : (complete n s).cache = s.cache := rfl
@[simp] theorem complete_mem (n : Nat) (s : State) : (complete n s).mem = s.mem := rfl
@[simp] theorem readReg_complete (i : Nat) (n : Nat) (s : State) : readReg i (complete n s) = readReg i s := rfl

/-! ### advance -/

@[simp] theorem advance_cfg (s : State) : (advance s).cfg = s.cfg := rfl
@[simp] theorem advance_program (s : State) : (advance s).program = s.program := rfl
@[simp] theorem advance_regs (s : State) : (advance s).regs = s.regs := rfl
@[simp] theorem advance_pc (s : State) : (advance s).pc = s.pc + s.cfg.pcStep := rfl
@[simp] theorem advance_ce (s : State) : (advance s).ce = s.ce := rfl
@[simp] theorem advance_statInstr (s : State) : (advance s).statInstr = s.statInstr + 1 := rfl
@[simp] theorem advance_statHits (s : State) : (advance s).statHits = s.statHits := rfl
@[simp] theorem advance_statMisses (s : State) : (advance s).statMisses = s.statMisses := rfl
@[simp] theorem advance_rs (s : State) : (advance s).rs = s.rs := rfl
@[simp] theorem advance_cache (s : State) : (advance s).cache = s.cache := rfl
@[simp] theorem advance_mem (s : State) : (advance s).mem = s.mem := rfl
@[simp] theorem readReg_advance (i : Nat) (s : State) : readReg i (advance s) = readReg i s := rfl

/-! ### skipLine -/

@[simp] theorem skipLine_cfg (s : State) : (skipLine s).cfg = s.cfg := rfl
@[simp] theorem skipLine_program (s : State) : (skipLine s).program = s.program := rfl
@[simp] theorem skipLine_regs (s : State) : (skipLine s).regs = s.regs := rfl
@[simp] theorem skipLine_pc (s : State) : (skipLine s).pc = s.pc + s.cfg.pcStep := rfl
@[simp] theorem skipLine_ce (s : State) : (skipLine s).ce = s.ce := rfl
@[simp] theorem skipLine_statInstr (s : State) : (skipLine s).statInstr = s.statInstr := rfl
@[simp] theorem skipLine_statHits (s : State) : (skipLine s).statHits = s.statHits := rfl
@[simp] theorem skipLine_statMisses (s : State) : (skipLine s).statMisses = s.statMisses := rfl
@[simp] theorem skipLine_rs (s : State) : (skipLine s).rs = s.rs := rfl
@[simp] theorem skipLine_cache (s : State) : (skipLine s).cache = s.cache := rfl
@[simp] theorem skipLine_mem (s : State) : (skipLine s).mem = s.mem := rfl
@[simp] theorem readReg_skipLine (i : Nat) (s : State) : readReg i (skipLine s) = readReg i s := rfl

/-! ### haltRun -/

@[simp] theorem haltRun_cfg (s : State) : (haltRun s).cfg = s.cfg := rfl
@[simp] theorem haltRun_program (s : State) : (haltRun s).program = s.program := rfl
@[simp] theorem haltRun_regs (s : State) : (haltRun s).regs = s.regs := rfl
@[simp] theorem haltRun_pc (s : State) : (haltRun s).pc = s.pc := rfl
@[simp] theorem haltRun_ce (s : State) : (haltRun s).ce = s.ce := rfl
@[simp] theorem haltRun_statInstr (s : State) : (haltRun s).statInstr = s.statInstr := rfl
@[simp] theorem haltRun_statHits (s : State) : (haltRun s).statHits = s.statHits := rfl
@[simp] theorem haltRun_statMisses (s : State) : (haltRun s).statMisses = s.statMisses := rfl
@[simp] theorem haltRun_rs (s : State) : (haltRun s).rs = .halted := rfl
@[simp] theorem haltRun_cache (s : State) : (haltRun s).cache = s.cache := rfl
@[simp] theorem haltRun_mem (s : State) : (haltRun s).mem = s.mem := rfl
@[simp] theorem readReg_haltRun (i : Nat) (s : State) : readReg i (haltRun s) = readReg i s := rfl

/-! ### endRun -/

@[simp] theorem endRun_cfg (s : State) : (endRun s).cfg = s.cfg := rfl
@[simp] theorem endRun_program (s : State) : (endRun s).program = s.program := rfl
@[simp] theorem endRun_regs (s : State) : (endRun s).regs = s.regs := rfl
@[simp] theorem endRun_pc (s : State) : (endRun s).pc = s.pc := rfl
@[simp] theorem endRun_ce (s : State) : (endRun s).ce = s.ce := rfl
@[simp] theorem endRun_statInstr (s : State) : (endRun s).statInstr = s.statInstr := rfl
@[simp] theorem endRun_statHits (s : State) : (endRun s).statHits = s.statHits := rfl
@[simp] theorem endRun_statMisses (s : State) : (endRun s).statMisses = s.statMisses := rfl
@[simp] theorem endRun_rs (s : State) : (endRun s).rs = .completed := rfl
@[simp] theorem endRun_cache (s : State) : (endRun s).cache = s.cache := rfl
@[simp] theorem endRun_mem (s : State) : (endRun s).mem = s.mem := rfl
@[simp] theorem readReg_endRun (i : Nat) (s : State) : readReg i (endRun s) = readReg i s := rfl

/-! ### startRun -/

@[simp] theorem startRun_cfg (p : List Line) (s : State) : (startRun p s).cfg = s.cfg := rfl
@[simp] theorem startRun_program (p : List Line) (s : State) : (startRun p s).program = p := rfl
@[simp] theorem startRun_regs (p : List Line) (s : State) : (startRun p s).regs = s.regs := rfl
@[simp] theorem startRun_pc (p : List Line) (s : State) : (startRun p s).pc = 0 := rfl
@[simp] theorem startRun_ce (p : List Line) (s : State) : (startRun p s).ce = s.ce := rfl
@[simp] theorem startRun_statInstr (p : List Line) (s : State) : (startRun p s).statInstr = s.statInstr := rfl
@[simp] theorem startRun_statHits (p : List Line) (s : State) : (startRun p s).statHits = s.statHits := rfl
@[simp] theorem startRun_statMisses (p : List Line) (s : State) : (startRun p s).statMisses = s.statMisses := rfl
@[simp] theorem startRun_rs (p : List Line) (s : State) : (startRun p s).rs = .running := rfl
@[simp] theorem startRun_cache (p : List Line) (s : State) : (startRun p s).cache = s.cache := rfl
@[simp] theorem startRun_mem (p : List Line) (s : State) : (startRun p s).mem = s.mem := rfl
@[simp] theorem readReg_startRun (i : Nat) (p : List Line) (s : State) : readReg i (startRun p s) = readReg i s := rfl

/-! ### Registers -/

/-- A register that exists reads back what was written, normalised (00_scope.md R12, R13). -/
theorem readReg_writeReg_same {k : Nat} {s : State} (v : Int) (h : k < s.regs.length) :
    readReg k (writeReg k v s) = normValue s.cfg v := by
  simp [readReg, List.getD, h]

/-- Writing one register leaves every other as it was. -/
theorem readReg_writeReg_ne {k i : Nat} (v : Int) (s : State) (h : i ≠ k) :
    readReg i (writeReg k v s) = readReg i s := by
  simp [readReg, List.getD, Ne.symm h]

/-- A register write keeps the register file's length. -/
theorem writeReg_regs_length (k : Nat) (v : Int) (s : State) : (writeReg k v s).regs.length = s.regs.length := by
  simp

end Sys2Proof.Machine
end

