-- ==== Sys2Proof/Laws/Ops.lean ====
section
/-! SUPPORT. Everything each shared operation can do, said once. -/

namespace Sys2Proof.Machine

/-! ### How an instruction ends -/

/-- A fatal-tier error takes the base advance or ends the run; either way the instruction wrote nothing. -/
theorem fatalError_cases (e : FatalError) (s : State) :
    (fatalError e s = skipLine s ∧ s.cfg.onFatal = .skip ∧ ∃ p a, e = .invalidAddress p a) ∨
      (fatalError e s = setRs (.faulted e) s ∧ ∀ p a, e = .invalidAddress p a → s.cfg.onFatal = .stop) := by
  cases e <;> cases h : s.cfg.onFatal <;> simp [fatalError, h]

/-- NegativePc ends the run whatever `ON_FATAL` is (60_exceptions.md R217). -/
theorem fatalError_negativePc (p : Nat) (target : Int) (s : State) :
    fatalError (.negativePc p target) s = setRs (.faulted (.negativePc p target)) s := rfl

theorem fatalError_stop {p : Nat} {a : Int} {s : State} (h : s.cfg.onFatal = .stop) :
    fatalError (.invalidAddress p a) s = setRs (.faulted (.invalidAddress p a)) s := by
  simp [fatalError, h]

theorem fatalError_skip {p : Nat} {a : Int} {s : State} (h : s.cfg.onFatal = .skip) :
    fatalError (.invalidAddress p a) s = skipLine s := by
  simp [fatalError, h]

theorem transfer_neg {next : Int} (written : State) {s : State} (h : next < 0) :
    transfer next written s = setRs (.faulted (.negativePc s.pc next)) s := by
  simp [transfer, h, fatalError]

theorem transfer_nonneg {next : Int} (written : State) {s : State} (h : 0 ≤ next) :
    transfer next written s = complete next.toNat written := by
  simp [transfer, Int.not_lt.2 h]

/-! ### Operands -/

theorem regsExist_iff {c : Config} {ks : List Nat} : regsExist c ks = true ↔ ∀ k ∈ ks, k < c.nreg := by
  simp [regsExist]

theorem withRegs_ok {ks : List Nat} {s : State} (effect : State → State) (h : ∀ k ∈ ks, k < s.cfg.nreg) :
    withRegs ks effect s = .next (effect s) := by
  simp [withRegs, regsExist_iff.2 h]

theorem withRegs_missing {ks : List Nat} {s : State} (effect : State → State) {k : Nat} (hk : k ∈ ks)
    (h : s.cfg.nreg ≤ k) : withRegs ks effect s = .next (skipLine s) := by
  have hn : ¬ regsExist s.cfg ks = true := fun hr => Nat.not_lt.2 h (regsExist_iff.1 hr k hk)
  simp [withRegs, hn]

/-- An instruction that names registers has its effect or is skipped. -/
theorem withRegs_cases (ks : List Nat) (effect : State → State) (s : State) :
    withRegs ks effect s = .next (effect s) ∨ withRegs ks effect s = .next (skipLine s) := by
  unfold withRegs
  split
  · exact .inl rfl
  · exact .inr rfl

/-! ### The engine's load and store path -/

/-- Everything a load can do: InvalidAddress, a bus read with CE false, a hit, or a miss with its back-fill
(42_loadstore.md R190). -/
theorem memRead_cases (a : Int) (s : State) :
    memRead a s = none ∨
      ∃ k cell, renderAddr s.cfg a = some k ∧ busRead s.cfg s.mem k = some cell ∧
        ((s.ce = false ∧ memRead a s = some (cell, s)) ∨
          (s.ce = true ∧ ∃ v, cachedValue k s.cache = some v ∧
            memRead a s = some (v, countHit (setCache (cacheLookup s.cfg k s.cache).2 s))) ∨
          (s.ce = true ∧ cachedValue k s.cache = none ∧
            memRead a s = some (cell, countMiss (setCache (cacheStore s.cfg k cell s.cache) s)))) := by
  unfold memRead
  cases hk : renderAddr s.cfg a with
  | none => exact .inl rfl
  | some k =>
    cases hc : busRead s.cfg s.mem k with
    | none => exact .inl (by simp [hc])
    | some cell =>
      refine .inr ⟨k, cell, rfl, hc, ?_⟩
      cases hce : s.ce with
      | false => exact .inl ⟨rfl, by simp [hc]⟩
      | true =>
        rcases cacheLookup_cases s.cfg k s.cache with ⟨hv, hl⟩ | ⟨v, hv, hl, _, _⟩
        · exact .inr (.inr ⟨rfl, hv, by simp [hc, hl]⟩)
        · refine .inr (.inl ⟨rfl, v, hv, ?_⟩)
          rcases hp : cacheLookup s.cfg k s.cache with ⟨r, ca⟩
          rw [hp] at hl
          subst hl
          simp [hc, hp]

/-- A load from an address out of range is InvalidAddress (20_memory.md R77). -/
theorem memRead_out {a : Int} {s : State} (h : a < 0 ∨ (s.cfg.memSize : Int) ≤ a) : memRead a s = none := by
  simp [memRead, renderAddr_none h]

/-- A load with CE false reads the bus (42_loadstore.md R190). -/
theorem memRead_bus {a : Nat} {s : State} (hc : legal s.cfg = true) (h : a < s.cfg.memSize) (hce : s.ce = false) :
    memRead a s = some (cellRead a s.mem, s) := by
  have hr : renderAddr s.cfg (a : Int) = some (binBW s.cfg a) := by simp [renderAddr, h]
  simp [memRead, hr, busRead_binBW hc h, hce]

/-- A load with CE true of a cached address is a hit (42_loadstore.md R190). -/
theorem memRead_hit {a : Nat} {v : Int} {s : State} (hc : legal s.cfg = true) (h : a < s.cfg.memSize)
    (hce : s.ce = true) (hv : cachedValue (binBW s.cfg a) s.cache = some v) :
    memRead a s = some (v, countHit (setCache (cacheLookup s.cfg (binBW s.cfg a) s.cache).2 s)) := by
  have hr : renderAddr s.cfg (a : Int) = some (binBW s.cfg a) := by simp [renderAddr, h]
  have hl := (cacheLookup_fst s.cfg (binBW s.cfg a) s.cache).trans hv
  rcases hp : cacheLookup s.cfg (binBW s.cfg a) s.cache with ⟨r, ca⟩
  rw [hp] at hl
  subst hl
  simp [memRead, hr, busRead_binBW hc h, hce, hp]

/-- A load with CE true of an absent address is a miss and back-fills the Cache (42_loadstore.md R190). -/
theorem memRead_miss {a : Nat} {s : State} (hc : legal s.cfg = true) (h : a < s.cfg.memSize) (hce : s.ce = true)
    (hv : cachedValue (binBW s.cfg a) s.cache = none) :
    memRead a s = some (cellRead a s.mem,
      countMiss (setCache (cacheStore s.cfg (binBW s.cfg a) (cellRead a s.mem) s.cache) s)) := by
  have hr : renderAddr s.cfg (a : Int) = some (binBW s.cfg a) := by simp [renderAddr, h]
  have hl : cacheLookup s.cfg (binBW s.cfg a) s.cache = (none, s.cache) := by simp [cacheLookup, hv]
  simp [memRead, hr, busRead_binBW hc h, hce, hl]

/-- Everything a store can do: InvalidAddress, or the bus write with the Cache store before it when CE is true
(42_loadstore.md R193). -/
theorem memWrite_cases (a : Int) (v : Int) (s : State) :
    memWrite a v s = none ∨
      ∃ k m, renderAddr s.cfg a = some k ∧ busWrite s.cfg s.mem k v = some m ∧
        ((s.ce = false ∧ memWrite a v s = some (setMem m s)) ∨
          (s.ce = true ∧ memWrite a v s = some (setMem m (setCache (cacheStore s.cfg k v s.cache) s)))) := by
  unfold memWrite
  cases hk : renderAddr s.cfg a with
  | none => exact .inl rfl
  | some k =>
    cases hm : busWrite s.cfg s.mem k v with
    | none => exact .inl (by simp [hm])
    | some m =>
      refine .inr ⟨k, m, rfl, hm, ?_⟩
      cases hce : s.ce with
      | false => exact .inl ⟨rfl, by simp [hm]⟩
      | true => exact .inr ⟨rfl, by simp [hm]⟩

/-- A store to an address out of range is InvalidAddress (20_memory.md R77). -/
theorem memWrite_out {a : Int} {s : State} (v : Int) (h : a < 0 ∨ (s.cfg.memSize : Int) ≤ a) :
    memWrite a v s = none := by
  simp [memWrite, renderAddr_none h]

/-- A store in range writes the cell, and with CE true the Cache first (42_loadstore.md R193). -/
theorem memWrite_in {a : Nat} {s : State} (v : Int) (hc : legal s.cfg = true) (h : a < s.cfg.memSize) :
    memWrite a v s = some (setMem (cellWrite a (normValue s.cfg v) s.mem)
      (if s.ce = true then setCache (cacheStore s.cfg (binBW s.cfg a) v s.cache) s else s)) := by
  have hr : renderAddr s.cfg (a : Int) = some (binBW s.cfg a) := by simp [renderAddr, h]
  cases hce : s.ce <;> simp [memWrite, hr, busWrite_binBW hc h, hce]

/-! ### Fetch and the step -/

/-- Everything fetch can find (10_state.md R45, R46). -/
theorem fetch_cases (s : State) :
    (fetch s = .notRunning ∧ s.rs ≠ .running) ∨
      (s.rs = .running ∧ s.program[s.pc]? = none ∧ fetch s = .ended) ∨
      ∃ line, s.rs = .running ∧ s.program[s.pc]? = some line ∧
        ((∃ r, decode s.cfg.nreg line = .error r ∧ fetch s = .skip r) ∨
          ∃ i, decode s.cfg.nreg line = .ok i ∧ fetch s = .run i) := by
  unfold fetch
  cases hrs : s.rs with
  | running =>
    cases hp : s.program[s.pc]? with
    | none => exact .inr (.inl ⟨rfl, rfl, rfl⟩)
    | some line =>
      refine .inr (.inr ⟨line, rfl, rfl, ?_⟩)
      cases hd : decode s.cfg.nreg line with
      | error r => exact .inl ⟨r, rfl, by simp [hd]⟩
      | ok i => exact .inr ⟨i, rfl, by simp [hd]⟩
  | idle => simp
  | halted => simp
  | completed => simp
  | faulted e => simp

/-- The line placed is the line fetched. -/
theorem placeLine_get (n : Nat) (l : Line) (p : List Line) : (placeLine n l p)[n]? = some l := by
  have hlen : (p.take n ++ List.replicate (n - p.length) []).length = n := by simp; omega
  rw [placeLine, List.getElem?_append_right (by omega), hlen]
  simp

/-- A word placed is the line the next step decodes (assumption log 4, 8). -/
theorem fetch_withFetchWord (s : State) (nbits w : Nat) {i : Instr}
    (h : decode s.cfg.nreg (lineOfWord nbits w) = .ok i) : fetch (s.withFetchWord nbits w) = .run i := by
  simp [fetch, State.withFetchWord, placeLine_get, h]

end Sys2Proof.Machine
end

