-- ==== Sys2Proof/Laws/Exec.lean ====
section
/-! SUPPORT. What `exec` answers for each instruction whose registers exist, in terms of the shared operations, and what
a step can be. -/

namespace Sys2Proof.Machine

theorem exec_add {d a b : Nat} {s : State} (hd : d < s.cfg.nreg) (ha : a < s.cfg.nreg) (hb : b < s.cfg.nreg) :
    exec (.add d a b) s = .next (advance (writeReg d (readReg a s + readReg b s) s)) :=
  withRegs_ok (fun s => writeResult d (readReg a s + readReg b s) s) (by simp [hd, ha, hb])

theorem exec_addi {d a : Nat} {imm : Int} {s : State} (hd : d < s.cfg.nreg) (ha : a < s.cfg.nreg) :
    exec (.addi d a imm) s = .next (advance (writeReg d (readReg a s + imm) s)) :=
  withRegs_ok (fun s => writeResult d (readReg a s + imm) s) (by simp [hd, ha])

theorem exec_sub {d a b : Nat} {s : State} (hd : d < s.cfg.nreg) (ha : a < s.cfg.nreg) (hb : b < s.cfg.nreg) :
    exec (.sub d a b) s = .next (advance (writeReg d (readReg a s - readReg b s) s)) :=
  withRegs_ok (fun s => writeResult d (readReg a s - readReg b s) s) (by simp [hd, ha, hb])

theorem exec_slt {d a b : Nat} {s : State} (hd : d < s.cfg.nreg) (ha : a < s.cfg.nreg) (hb : b < s.cfg.nreg) :
    exec (.slt d a b) s = .next (advance (writeReg d (setLess (readReg a s) (readReg b s)) s)) :=
  withRegs_ok (fun s => writeResult d (setLess (readReg a s) (readReg b s)) s) (by simp [hd, ha, hb])

theorem exec_bne_equal {a b : Nat} {offset : Int} {s : State} (ha : a < s.cfg.nreg) (hb : b < s.cfg.nreg)
    (h : readReg a s = readReg b s) : exec (.bne a b offset) s = .next (advance s) := by
  have hr : regsExist s.cfg [a, b] = true := regsExist_iff.2 (by simp [ha, hb])
  simp [exec, execBne, withRegs, hr, notEqual, h]

theorem exec_bne_taken {a b : Nat} {offset : Int} {s : State} (ha : a < s.cfg.nreg) (hb : b < s.cfg.nreg)
    (h : readReg a s ≠ readReg b s) : exec (.bne a b offset) s = .next (transfer (branchTarget offset s) s s) := by
  have hr : regsExist s.cfg [a, b] = true := regsExist_iff.2 (by simp [ha, hb])
  simp [exec, execBne, withRegs, hr, notEqual, h]

theorem exec_j (target : Int) (s : State) : exec (.j target) s = .next (transfer (4 * target) s s) := rfl

theorem exec_jal {target : Int} {s : State} (h : 7 < s.cfg.nreg) :
    exec (.jal target) s = .next (transfer (4 * target) (writeReg 7 (s.pc + 4) s) s) :=
  withRegs_ok (fun s => transfer (jumpTarget target) (writeReg linkReg (linkValue s) s) s)
    (by simpa [linkReg] using h)

theorem exec_lw {b t : Nat} {offset : Int} {s : State} (hb : b < s.cfg.nreg) (ht : t < s.cfg.nreg) :
    exec (.lw b t offset) s = .next (loadInto t (readReg b s + offset) s) :=
  withRegs_ok (fun s => loadInto t (effectiveAddr b offset s) s) (by simp [hb, ht])

theorem exec_sw {b t : Nat} {offset : Int} {s : State} (hb : b < s.cfg.nreg) (ht : t < s.cfg.nreg) :
    exec (.sw b t offset) s = .next (storeFrom (readReg t s) (readReg b s + offset) s) :=
  withRegs_ok (fun s => storeFrom (readReg t s) (effectiveAddr b offset s) s) (by simp [hb, ht])

theorem exec_cache (mode : CacheMode) (s : State) : exec (.cache mode) s = .next (advance (applyCacheMode mode s)) := rfl

theorem exec_halt (s : State) : exec .halt s = .next (haltRun s) := rfl

/-! ### Loads and stores of one address -/

theorem loadInto_out {t : Nat} {a : Int} {s : State} (h : a < 0 ∨ (s.cfg.memSize : Int) ≤ a) :
    loadInto t a s = fatalError (.invalidAddress s.pc a) s := by
  simp only [loadInto, memRead_out h]

theorem loadInto_bus {t a : Nat} {s : State} (hc : legal s.cfg = true) (h : a < s.cfg.memSize) (hce : s.ce = false) :
    loadInto t a s = advance (writeReg t (cellRead a s.mem) s) := by
  simp only [loadInto, memRead_bus hc h hce]

theorem loadInto_hit {t a : Nat} {v : Int} {s : State} (hc : legal s.cfg = true) (h : a < s.cfg.memSize)
    (hce : s.ce = true) (hv : cachedValue (binBW s.cfg a) s.cache = some v) :
    loadInto t a s =
      advance (writeReg t v (countHit (setCache (cacheLookup s.cfg (binBW s.cfg a) s.cache).2 s))) := by
  simp only [loadInto, memRead_hit hc h hce hv]

theorem loadInto_miss {t a : Nat} {s : State} (hc : legal s.cfg = true) (h : a < s.cfg.memSize) (hce : s.ce = true)
    (hv : cachedValue (binBW s.cfg a) s.cache = none) :
    loadInto t a s = advance (writeReg t (cellRead a s.mem)
      (countMiss (setCache (cacheStore s.cfg (binBW s.cfg a) (cellRead a s.mem) s.cache) s))) := by
  simp only [loadInto, memRead_miss hc h hce hv]

theorem storeFrom_out {v a : Int} {s : State} (h : a < 0 ∨ (s.cfg.memSize : Int) ≤ a) :
    storeFrom v a s = fatalError (.invalidAddress s.pc a) s := by
  simp only [storeFrom, memWrite_out v h]

theorem storeFrom_in {v : Int} {a : Nat} {s : State} (hc : legal s.cfg = true) (h : a < s.cfg.memSize) :
    storeFrom v a s = advance (setMem (cellWrite a (normValue s.cfg v) s.mem)
      (if s.ce = true then setCache (cacheStore s.cfg (binBW s.cfg a) v s.cache) s else s)) := by
  simp only [storeFrom, memWrite_in v hc h]

/-! ### The step -/

/-- A step that answers a next state ended the run, skipped a line, or ran a decoded instruction. -/
theorem step_cases {s t : State} (h : step s = .next t) :
    s.rs = .running ∧
      ((fetch s = .ended ∧ s.program.length ≤ s.pc ∧ t = endRun s) ∨
        (∃ r, fetch s = .skip r ∧ t = skipLine s) ∨
        ∃ line i, fetch s = .run i ∧ s.program[s.pc]? = some line ∧ decode s.cfg.nreg line = .ok i ∧
          exec i s = .next t) := by
  rcases fetch_cases s with ⟨hf, _⟩ | ⟨hr, hp, hf⟩ | ⟨line, hr, hp, ⟨r, _, hf⟩ | ⟨i, hd, hf⟩⟩
  · simp [step, hf] at h
  · simp only [step, hf] at h
    cases h
    exact ⟨hr, .inl ⟨hf, List.getElem?_eq_none_iff.1 hp, rfl⟩⟩
  · simp only [step, hf] at h
    cases h
    exact ⟨hr, .inr (.inl ⟨r, hf, rfl⟩)⟩
  · simp only [step, hf] at h
    exact ⟨hr, .inr (.inr ⟨line, i, hf, hp, hd, h⟩)⟩

end Sys2Proof.Machine
end

