-- ==== Sys2Proof/Laws/PerInstr.lean ====
section
/-! SUPPORT. Statements about each instruction as syntax, one lemma per constructor. -/

namespace Sys2Proof.Laws.Tokens

/-- The canonical spelling splits into the opcode's token and the operand tokens (30_encoding.md R132, R145). -/
def Statement (i : Instr) : Prop := tokens (encode i) = i.opcode.spelling :: i.operandTokens

/-- What every constructor's lemma rests on: the operand tokens are plain. -/
theorem of_plain {i : Instr} (h : ∀ t ∈ i.operandTokens, PlainToken t) : Statement i :=
  tokens_joinComma (by simp) fun t ht => by
    rcases List.mem_cons.1 ht with rfl | ht
    · exact spelling_plain _
    · exact h t ht

theorem three_plain {a b c : Line} (ha : PlainToken a) (hb : PlainToken b) (hc : PlainToken c) :
    ∀ t ∈ [a, b, c], PlainToken t := by
  simp [ha, hb, hc]

theorem add (d s t : Nat) : Statement (.add d s t) :=
  of_plain (three_plain (regToken_plain d) (regToken_plain s) (regToken_plain t))

theorem addi (d s : Nat) (imm : Int) : Statement (.addi d s imm) :=
  of_plain (three_plain (regToken_plain d) (regToken_plain s) (intToken_plain imm))

theorem sub (d s t : Nat) : Statement (.sub d s t) :=
  of_plain (three_plain (regToken_plain d) (regToken_plain s) (regToken_plain t))

theorem slt (d s t : Nat) : Statement (.slt d s t) :=
  of_plain (three_plain (regToken_plain d) (regToken_plain s) (regToken_plain t))

theorem bne (s t : Nat) (offset : Int) : Statement (.bne s t offset) :=
  of_plain (three_plain (regToken_plain s) (regToken_plain t) (intToken_plain offset))

theorem j (target : Int) : Statement (.j target) :=
  of_plain fun _ h => by rw [List.mem_singleton.1 h]; exact intToken_plain target

theorem jal (target : Int) : Statement (.jal target) :=
  of_plain fun _ h => by rw [List.mem_singleton.1 h]; exact intToken_plain target

theorem lw (s t : Nat) (offset : Int) : Statement (.lw s t offset) :=
  of_plain (three_plain (regToken_plain s) (regToken_plain t) (intToken_plain offset))

theorem sw (s t : Nat) (offset : Int) : Statement (.sw s t offset) :=
  of_plain (three_plain (regToken_plain s) (regToken_plain t) (intToken_plain offset))

theorem cache (mode : CacheMode) : Statement (.cache mode) :=
  of_plain fun _ h => by rw [List.mem_singleton.1 h]; exact cacheModeToken_plain mode

theorem halt : Statement .halt := of_plain fun _ h => by cases h

end Sys2Proof.Laws.Tokens
end

