-- ==== Sys2Proof/Laws/Shape.lean ====
section
/-! SUPPORT. Everything an instruction can do, said once: the inversion lemma of `exec`, from which the whole-machine
rules follow by cases. -/

namespace Sys2Proof.Machine

/-- What an InvalidAddress means for the model: the engine does not render the address, or the bus rejects the
rendering (impossible with a legal configuration, see `renderAddr_some` and `busValid_binBW`). -/
def rejected (c : Config) (a : Int) : Prop :=
  renderAddr c a = none ∨ ∃ k, renderAddr c a = some k ∧ busValid c k = false

/-- The next states of an instruction, by what it did. -/
inductive ExecShape (s : State) : Instr → State → Prop where
  | skipped (i : Instr) (h : i.wf s.cfg.nreg = false) : ExecShape s i (skipLine s)
  | addressSkipped (i : Instr) (a : Int) (hi : accessesMemory i = true) (ha : rejected s.cfg a)
      (hs : s.cfg.onFatal = .skip) : ExecShape s i (skipLine s)
  | addressFault (i : Instr) (a : Int) (hi : accessesMemory i = true) (ha : rejected s.cfg a)
      (hs : s.cfg.onFatal = .stop) : ExecShape s i (setRs (.faulted (.invalidAddress s.pc a)) s)
  | pcFault (i : Instr) (target : Int) (hi : accessesMemory i = false) (h : target < 0) :
      ExecShape s i (setRs (.faulted (.negativePc s.pc target)) s)
  | wrote (i : Instr) (d : Nat) (v : Int) (n : Nat) (hi : accessesMemory i = false) (hw : writtenRegs i = [d])
      (hc : ∀ mode, i ≠ .cache mode) : ExecShape s i (complete n (writeReg d v s))
  | branched (i : Instr) (n : Nat) (hi : accessesMemory i = false) (hw : writtenRegs i = [])
      (hc : ∀ mode, i ≠ .cache mode) : ExecShape s i (complete n s)
  | cacheMode (mode : CacheMode) : ExecShape s (.cache mode) (advance (applyCacheMode mode s))
  | halted : ExecShape s .halt (haltRun s)
  | loadedBus (b t : Nat) (offset : Int) (k : Line) (cell : Int)
      (hk : renderAddr s.cfg (readReg b s + offset) = some k) (hb : busRead s.cfg s.mem k = some cell)
      (hce : s.ce = false) : ExecShape s (.lw b t offset) (advance (writeReg t cell s))
  | loadedHit (b t : Nat) (offset : Int) (k : Line) (cell v : Int)
      (hk : renderAddr s.cfg (readReg b s + offset) = some k) (hb : busRead s.cfg s.mem k = some cell)
      (hce : s.ce = true) (hv : cachedValue k s.cache = some v) :
      ExecShape s (.lw b t offset)
        (advance (writeReg t v (countHit (setCache (cacheLookup s.cfg k s.cache).2 s))))
  | loadedMiss (b t : Nat) (offset : Int) (k : Line) (cell : Int)
      (hk : renderAddr s.cfg (readReg b s + offset) = some k) (hb : busRead s.cfg s.mem k = some cell)
      (hce : s.ce = true) (hv : cachedValue k s.cache = none) :
      ExecShape s (.lw b t offset)
        (advance (writeReg t cell (countMiss (setCache (cacheStore s.cfg k cell s.cache) s))))
  | storedBus (b t : Nat) (offset : Int) (k : Line) (m : Memory)
      (hk : renderAddr s.cfg (readReg b s + offset) = some k) (hb : busWrite s.cfg s.mem k (readReg t s) = some m)
      (hce : s.ce = false) : ExecShape s (.sw b t offset) (advance (setMem m s))
  | storedBoth (b t : Nat) (offset : Int) (k : Line) (m : Memory)
      (hk : renderAddr s.cfg (readReg b s + offset) = some k) (hb : busWrite s.cfg s.mem k (readReg t s) = some m)
      (hce : s.ce = true) :
      ExecShape s (.sw b t offset)
        (advance (setMem m (setCache (cacheStore s.cfg k (readReg t s) s.cache) s)))

/-- A load that answers none was rejected. -/
theorem rejected_of_memRead {a : Int} {s : State} (h : memRead a s = none) : rejected s.cfg a := by
  unfold rejected
  unfold memRead at h
  split at h
  · rename_i hk; exact .inl hk
  · rename_i k hk
    refine .inr ⟨k, hk, ?_⟩
    split at h
    · rename_i hb
      by_contra hv
      simp [busRead, Bool.not_eq_false _ ▸ hv] at hb
    · repeat' split at h
      all_goals cases h

/-- A store that answers none was rejected. -/
theorem rejected_of_memWrite {a v : Int} {s : State} (h : memWrite a v s = none) : rejected s.cfg a := by
  unfold rejected
  unfold memWrite at h
  split at h
  · rename_i hk; exact .inl hk
  · rename_i k hk
    refine .inr ⟨k, hk, ?_⟩
    split at h
    · rename_i hb
      by_contra hv
      simp [busWrite, Bool.not_eq_false _ ▸ hv] at hb
    · repeat' split at h
      all_goals cases h

/-- With a legal configuration a rejected address is out of range. -/
theorem out_of_rejected {c : Config} {a : Int} (hc : legal c = true) (h : rejected c a) :
    a < 0 ∨ (c.memSize : Int) ≤ a := by
  by_contra hn
  have h0 : 0 ≤ a := by omega
  have h1 : a < c.memSize := by omega
  rcases h with h | ⟨k, hk, hv⟩
  · rw [renderAddr_some h0 h1] at h; cases h
  · rw [renderAddr_some h0 h1] at hk
    cases hk
    rw [busValid_binBW hc (by omega)] at hv
    cases hv

theorem shape_addressFatal {i : Instr} {s : State} {a : Int} (hi : accessesMemory i = true) (h : rejected s.cfg a) :
    ExecShape s i (fatalError (.invalidAddress s.pc a) s) := by
  cases hs : s.cfg.onFatal with
  | stop => rw [fatalError_stop hs]; exact .addressFault i a hi h hs
  | skip => rw [fatalError_skip hs]; exact .addressSkipped i a hi h hs

theorem shape_load (b t : Nat) (offset : Int) (s : State) :
    ExecShape s (.lw b t offset) (loadInto t (readReg b s + offset) s) := by
  rcases memRead_cases (readReg b s + offset) s with h | ⟨k, cell, hk, hb, ⟨hce, h⟩ | ⟨hce, v, hv, h⟩ | ⟨hce, hv, h⟩⟩
  · simp only [loadInto, h]
    exact shape_addressFatal rfl (rejected_of_memRead h)
  · simp only [loadInto, h]
    exact .loadedBus b t offset k cell hk hb hce
  · simp only [loadInto, h]
    exact .loadedHit b t offset k cell v hk hb hce hv
  · simp only [loadInto, h]
    exact .loadedMiss b t offset k cell hk hb hce hv

theorem shape_store (b t : Nat) (offset : Int) (s : State) :
    ExecShape s (.sw b t offset) (storeFrom (readReg t s) (readReg b s + offset) s) := by
  rcases memWrite_cases (readReg b s + offset) (readReg t s) s with h | ⟨k, m, hk, hb, ⟨hce, h⟩ | ⟨hce, h⟩⟩
  · simp only [storeFrom, h]
    exact shape_addressFatal rfl (rejected_of_memWrite h)
  · simp only [storeFrom, h]
    exact .storedBus b t offset k m hk hb hce
  · simp only [storeFrom, h]
    exact .storedBoth b t offset k m hk hb hce

theorem shape_transfer {i : Instr} {s : State} (next : Int) (hi : accessesMemory i = false) (hw : writtenRegs i = [])
    (hc : ∀ mode, i ≠ .cache mode) : ExecShape s i (transfer next s s) := by
  by_cases h : next < 0
  · rw [transfer_neg s h]; exact .pcFault i next hi h
  · rw [transfer_nonneg s (by omega)]; exact .branched i _ hi hw hc

/-- An instruction whose registers do not all exist is skipped. -/
theorem exec_missing {i : Instr} {s : State} (h : i.wf s.cfg.nreg = false) : exec i s = .next (skipLine s) := by
  have hn : ∀ (ks : List Nat) (effect : State → State), (∃ k ∈ ks, s.cfg.nreg ≤ k) →
      withRegs ks effect s = .next (skipLine s) := fun ks effect ⟨_, hk, hle⟩ => withRegs_missing effect hk hle
  cases i <;>
    simp only [Instr.wf, Bool.and_eq_false_iff, decide_eq_false_iff_not, Nat.not_lt, Bool.true_eq_false] at h <;>
    simp only [exec, execAdd, execAddi, execSub, execSlt, execBne, execJal, execLw, execSw] <;>
    refine hn _ _ ?_ <;>
    simpa [linkReg, or_assoc] using h

/-- The inversion lemma: an instruction's next state has one of the shapes. -/
theorem exec_shape {i : Instr} {s t : State} (h : exec i s = .next t) : ExecShape s i t := by
  cases hw : i.wf s.cfg.nreg with
  | false =>
    rw [exec_missing hw] at h
    cases h
    exact .skipped i hw
  | true =>
    cases i with
    | add d a b =>
      simp only [Instr.wf, Bool.and_eq_true, decide_eq_true_eq] at hw
      rw [exec_add hw.1.1 hw.1.2 hw.2] at h
      cases h
      exact .wrote _ d _ _ rfl rfl (by simp)
    | addi d a imm =>
      simp only [Instr.wf, Bool.and_eq_true, decide_eq_true_eq] at hw
      rw [exec_addi hw.1 hw.2] at h
      cases h
      exact .wrote _ d _ _ rfl rfl (by simp)
    | sub d a b =>
      simp only [Instr.wf, Bool.and_eq_true, decide_eq_true_eq] at hw
      rw [exec_sub hw.1.1 hw.1.2 hw.2] at h
      cases h
      exact .wrote _ d _ _ rfl rfl (by simp)
    | slt d a b =>
      simp only [Instr.wf, Bool.and_eq_true, decide_eq_true_eq] at hw
      rw [exec_slt hw.1.1 hw.1.2 hw.2] at h
      cases h
      exact .wrote _ d _ _ rfl rfl (by simp)
    | bne a b offset =>
      simp only [Instr.wf, Bool.and_eq_true, decide_eq_true_eq] at hw
      by_cases he : readReg a s = readReg b s
      · rw [exec_bne_equal hw.1 hw.2 he] at h
        cases h
        exact .branched _ _ rfl rfl (by simp)
      · rw [exec_bne_taken hw.1 hw.2 he] at h
        cases h
        exact shape_transfer _ rfl rfl (by simp)
    | j target =>
      cases h
      exact shape_transfer _ rfl rfl (by simp)
    | jal target =>
      rw [exec_jal (by simpa [Instr.wf] using hw)] at h
      cases h
      by_cases hn : 4 * target < 0
      · rw [transfer_neg _ hn]; exact .pcFault _ _ rfl hn
      · rw [transfer_nonneg _ (by omega)]; exact .wrote _ 7 _ _ rfl rfl (by simp)
    | lw b t offset =>
      simp only [Instr.wf, Bool.and_eq_true, decide_eq_true_eq] at hw
      rw [exec_lw hw.1 hw.2] at h
      cases h
      exact shape_load b t offset s
    | sw b t offset =>
      simp only [Instr.wf, Bool.and_eq_true, decide_eq_true_eq] at hw
      rw [exec_sw hw.1 hw.2] at h
      cases h
      exact shape_store b t offset s
    | cache mode =>
      cases h
      exact .cacheMode mode
    | halt =>
      cases h
      exact .halted

end Sys2Proof.Machine
end

