-- ==== Sys2Proof/Tests/Slice0.lean ====
section
/-! SUPPORT. Tests. Expected results are the vectors of 95_test_vectors.md (named A1, B4, ... as there), the decode table
of 30_encoding.md R147, or worked by hand from the rule named. After them, for each statement of Obligations.lean
that has hypotheses, states and operands that meet them, at the boundary of each clause. -/

open Sys2Proof Sys2Proof.Machine

namespace Sys2Proof.Tests

/-! ### Helpers -/

/-- The setting of most vectors: 9 registers, LRU, write-through, capacity 2. -/
def cfg (memSize : Nat) : Config := { Config.named with memSize := memSize }

/-- Capacity `cap` under LFU. -/
def lfu (cap : Nat) : Config := { Config.named with cap := cap, evict := .lfu }

/-- A constructed instance about to run the line `l` at index `p`. -/
def ready (c : Config) (p : Nat) (l : String) : State :=
  { State.constructed c with pc := p, program := placeLine p l.toList [], rs := .running }

/-- The registers listed, set. -/
def regs (kvs : List (Nat × Int)) (s : State) : State :=
  { s with regs := kvs.foldl (fun r kv => r.set kv.1 kv.2) s.regs }

/-- An address entry that is clean and, under LRU, uncounted. -/
def entry (k : String) (v : Int) : CacheEntry := { key := .addr k.toList, value := some v, freq := 0, dirty := false }

/-- The same with a frequency. -/
def counted (k : String) (v : Int) (n : Nat) : CacheEntry := { entry k v with freq := n }

/-- The key of an address string. -/
def key (k : String) : CacheKey := .addr k.toList

/-- The state a step gives, if it gives one. -/
def stepped (s : State) : Option State :=
  match step s with
  | .next t => some t
  | .fault _ => none
  | .refused _ => none

/-- What an outcome of `exec` gives, if it gives a state. -/
def ran (i : Instr) (s : State) : Option State :=
  match exec i s with
  | .next t => some t
  | .fault _ => none
  | .refused _ => none

/-- A sequence of host stores and lookups on a Cache: the value stored, or none for a lookup. -/
def calls (c : Config) (ks : List (String × Option Int)) (ca : Cache) : Cache :=
  ks.foldl (fun ca kv =>
    match kv.2 with
    | some v => cacheStore c kv.1.toList v ca
    | none => (cacheLookup c kv.1.toList ca).2) ca

/-- Keys and frequencies of a table. -/
def freqs (ca : Cache) : List (CacheKey × Nat) := ca.table.map (fun e => (e.key, e.freq))

/-- An answer of the decoder, comparable. -/
def decoded (l : String) : Option Instr :=
  match decode 9 l.toList with
  | .ok i => some i
  | .error _ => none

/-- The reason of a skip. -/
def reason (nreg : Nat) (l : String) : Option SkipReason :=
  match decode nreg l.toList with
  | .ok _ => none
  | .error r => some r

/-! ### Well-formedness: one ill-formed term for each check -/

theorem test_wf_three_registers :
    (Instr.add 8 8 8).wf 9 = true ∧ (Instr.add 9 0 0).wf 9 = false ∧ (Instr.add 0 9 0).wf 9 = false ∧
      (Instr.add 0 0 9).wf 9 = false ∧ (Instr.sub 9 0 0).wf 9 = false ∧ (Instr.sub 0 9 0).wf 9 = false ∧
      (Instr.sub 0 0 9).wf 9 = false ∧ (Instr.slt 9 0 0).wf 9 = false ∧ (Instr.slt 0 9 0).wf 9 = false ∧
      (Instr.slt 0 0 9).wf 9 = false := by decide

theorem test_wf_two_registers :
    (Instr.addi 8 8 (-1)).wf 9 = true ∧ (Instr.addi 9 0 0).wf 9 = false ∧ (Instr.addi 0 9 0).wf 9 = false ∧
      (Instr.bne 9 0 0).wf 9 = false ∧ (Instr.bne 0 9 0).wf 9 = false ∧ (Instr.lw 9 0 0).wf 9 = false ∧
      (Instr.lw 0 9 0).wf 9 = false ∧ (Instr.sw 9 0 0).wf 9 = false ∧ (Instr.sw 0 9 0).wf 9 = false := by decide

theorem test_wf_link_register :
    (Instr.jal 0).wf 8 = true ∧ (Instr.jal 0).wf 7 = false ∧ (Instr.j 0).wf 1 = true ∧
      (Instr.cache .flush).wf 1 = true ∧ Instr.halt.wf 1 = true := by decide

/-! ### Decode: one line per row of the opcode table, written out from 30_encoding.md R135, R142 -/

theorem test_decode_add : decoded "ADD,R8,R0,R2" = some (.add 8 0 2) := by decide
theorem test_decode_addi : decoded "ADDI,R1,R2,-12" = some (.addi 1 2 (-12)) := by decide
theorem test_decode_sub : decoded "SUB,R5,R3,R4" = some (.sub 5 3 4) := by decide
theorem test_decode_slt : decoded "slt,r1,r2,r3" = some (.slt 1 2 3) := by decide
theorem test_decode_bne : decoded "BNE,R1,R2,-2" = some (.bne 1 2 (-2)) := by decide
theorem test_decode_j : decoded "J,+0012" = some (.j 12) ∧ decoded "j, 7" = some (.j 7) := by decide
theorem test_decode_jal : decoded "JAL,1" = some (.jal 1) := by decide
theorem test_decode_lw : decoded "LW,R1,R3,89" = some (.lw 1 3 89) := by decide
theorem test_decode_sw : decoded "\tSW,R1,R2,3\r" = some (.sw 1 2 3) := by decide
theorem test_decode_cache : decoded "CACHE,0" = some (.cache .disable) ∧ decoded "CACHE,1" = some (.cache .enable) ∧
    decoded "CACHE,002" = some (.cache .flush) ∧ decoded "CACHE,+2" = some (.cache .flush) := by decide
theorem test_decode_halt : decoded "halt" = some .halt := by decide

/-- DEC1, DEC2, DEC7 to DEC13, DEC15 to DEC17. -/
theorem test_decode_reasons :
    reason 9 "ADD,R1,R2,R3," = some .operandCount ∧ reason 9 "ADD,,R1,R2" = some .badRegister ∧
      reason 9 "LW,R1,R2,1.5" = some .badInteger ∧ reason 9 "LW,R1,R2,- 1" = some .badInteger ∧
      reason 9 "LW,R1,R2" = some .operandCount ∧ reason 9 "LW R1,R2,3" = some .unknownOpcode ∧
      reason 9 "ADD,R-1,R2,R3" = some .badRegister ∧ reason 9 "ADD,R10,R2,R3" = some .registerOutOfRange ∧
      reason 7 "JAL,1" = some .registerOutOfRange ∧ reason 9 "CACHE,1,2" = some .operandCount ∧
      reason 9 "BNE,R1,R2,x" = some .badInteger ∧ reason 9 "BNE,R1,Q,x" = some .badRegister := by decide

/-- The canonical spelling, 30_encoding.md R145. -/
theorem test_encode : encode (.addi 3 10 (-120)) = "ADDI,R3,R10,-120".toList ∧ encode .halt = "HALT".toList := by decide

/-- "HALT" is 48 41 4C 54 in ASCII, "J,3" is 4A 2C 33; the first character is the lowest byte (log 8). -/
theorem test_table_words :
    decodeTableWord 32 0x544C4148 = some .halt ∧ decodeTableWord 24 0x332C4A = some (.j 3) := by decide

/-- The line placed at the pc is the one the next step runs. -/
theorem test_fetch_word : (stepped (State.reset.withFetchWord 24 0x332C4A)).map State.pc = some 12 := by decide

/-! ### Instructions -/

/-- A2. -/
theorem test_add_source_is_destination :
    (stepped (regs [(1, 5)] (ready (cfg 256) 0 "ADD,R1,R1,R1"))).map (fun t => (readReg 1 t, t.pc, t.statInstr)) =
      some (10, 1, 1) := by decide

/-- A4. -/
theorem test_add_wraps :
    (stepped (regs [(1, 2147483647), (2, 1)] (ready { cfg 256 with xlen := .finite 32 } 0 "ADD,R3,R1,R2"))).map
      (readReg 3) = some (-2147483648) := by decide

/-- A7: register 0 is a plain register. -/
theorem test_addi_writes_register_zero :
    (stepped (ready (cfg 256) 0 "ADDI,R0,R0,9")).map (fun t => (readReg 0 t, t.pc)) = some (9, 1) := by decide

/-- A9: no bound. -/
theorem test_addi_unbounded :
    (stepped (ready (cfg 256) 0 "ADDI,R1,R0,123456789012345678901234567890")).map (readReg 1) =
      some 123456789012345678901234567890 := by decide

/-- A10. -/
theorem test_sub_order :
    (stepped (regs [(3, 2), (4, 9)] (ready (cfg 256) 0 "SUB,R5,R3,R4"))).map (readReg 5) = some (-7) := by decide

/-- A12. -/
theorem test_slt_is_signed :
    (stepped (regs [(1, -1), (2, 0)] (ready (cfg 256) 0 "SLT,R3,R1,R2"))).map (readReg 3) = some 1 := by decide

/-- A14. -/
theorem test_slt_source_is_destination :
    (stepped (regs [(1, 5), (2, 4)] (ready (cfg 256) 0 "SLT,R1,R1,R2"))).map (readReg 1) = some 0 := by decide

/-- B4: 4 + 4 - 8 + 1. -/
theorem test_bne_backwards :
    (stepped (regs [(1, 1)] (ready (cfg 256) 4 "BNE,R1,R0,-2"))).map (fun t => (t.pc, t.statInstr)) = some (1, 1) := by
  decide

/-- B5. -/
theorem test_bne_negative_target :
    (stepped (regs [(1, 1)] (ready (cfg 256) 0 "BNE,R1,R0,-2"))).map (fun t => (t.rs, t.pc, t.statInstr)) =
      some (.faulted (.negativePc 0 (-3)), 0, 0) := by decide

/-- B7. -/
theorem test_j_scales :
    (stepped (ready (cfg 256) 9 "J,3")).map (fun t => (t.pc, t.statInstr)) = some (12, 1) := by decide

/-- B9. -/
theorem test_j_negative_target :
    (stepped (ready (cfg 256) 2 "J,-1")).map (fun t => (t.rs, t.pc)) = some (.faulted (.negativePc 2 (-4)), 2) := by
  decide

/-- B10: the link is the index plus 4. -/
theorem test_jal_links :
    (stepped (ready (cfg 256) 2 "JAL,5")).map (fun t => (readReg 7 t, t.pc, t.statInstr)) = some (6, 20, 1) := by decide

/-- B12: nothing is linked when the target is negative. -/
theorem test_jal_negative_target :
    (stepped (regs [(7, 99)] (ready (cfg 256) 3 "JAL,-2"))).map (fun t => (t.rs, readReg 7 t, t.pc)) =
      some (.faulted (.negativePc 3 (-8)), 99, 3) := by decide

/-- M5: a miss back-fills. Address 10 is 00001010 (W5). -/
theorem test_lw_miss :
    (stepped { regs [(1, 10)] (ready (cfg 100) 0 "LW,R1,R3,0") with ce := true, mem := [(10, 42)] }).map
      (fun t => (readReg 3 t, t.statHits, t.statMisses, t.cache.table, t.cache.recency)) =
      some (42, 0, 1, [placeholder 1, entry "00001010" 42], [.empty 1, key "00001010"]) := by decide

/-- M3: address 100 is well shaped and out of range. -/
theorem test_lw_out_of_range :
    (stepped (regs [(1, 10)] (ready (cfg 100) 0 "LW,R1,R3,90"))).map (fun t => (t.rs, t.pc, t.statInstr)) =
      some (.faulted (.invalidAddress 0 100), 0, 0) := by decide

/-- M8: with CE false the Cache keeps the older value. Address 15 is 00001111. -/
theorem test_sw_leaves_the_cache_stale :
    (stepped { regs [(1, 10), (2, 7)] (ready (cfg 100) 0 "SW,R1,R2,5") with
        mem := [(15, 42)], cache := Cache.mk [placeholder 1, entry "00001111" 42] [.empty 1, key "00001111"] }).map
      (fun t => (t.mem, cachedValue "00001111".toList t.cache)) =
      some ([(15, 7)], some 42) := by decide

/-- M10: write-back writes the bus too, and marks the entry. -/
theorem test_sw_write_back :
    (stepped { regs [(1, 3), (2, 5)] (ready { cfg 100 with wpol := .writeBack } 0 "SW,R1,R2,0") with ce := true }).map
      (fun t => (t.mem, t.cache.table)) =
      some ([(3, 5)], [placeholder 1, { entry "00000011" 5 with dirty := true }]) := by decide

/-- S2. -/
theorem test_cache_disable_keeps_the_contents :
    (stepped { ready (cfg 256) 0 "CACHE,0" with
        ce := true, cache := Cache.mk [entry "k1" 4, entry "k2" 6] [key "k1", key "k2"] }).map
      (fun t => (t.ce, t.cache.table)) =
      some (false, [entry "k1" 4, entry "k2" 6]) := by decide

/-- S3, S4: no cell is written, CE is kept. -/
theorem test_cache_flush :
    (stepped { ready { cfg 256 with wpol := .writeBack } 0 "CACHE,2" with
        mem := [(1, 9)]
        cache := Cache.mk [{ entry "00000001" 4 with dirty := true }, { entry "00000010" 6 with dirty := true }]
          [key "00000001", key "00000010"] }).map
      (fun t => (t.ce, t.mem, t.cache.table, t.cache.recency)) =
      some (false, [(1, 9)], [placeholder 0, placeholder 1], [.empty 0, .empty 1]) := by decide

/-- S7, S8. -/
theorem test_halt :
    (stepped (ready (cfg 256) 5 "halt")).map (fun t => (t.rs, t.pc, t.statInstr)) = some (.halted, 5, 0) := by decide

/-- S5 and S9: skipped lines advance the pc and count nothing. -/
theorem test_skipped_lines :
    (stepped (ready (cfg 256) 5 "HALT,")).map (fun t => (t.rs, t.pc, t.statInstr)) = some (.running, 6, 0) ∧
      (stepped (ready (cfg 256) 0 "CACHE,3")).map (fun t => (t.ce, t.pc, t.statInstr)) = some (false, 1, 0) := by decide

/-! ### Bus, Cache, construction, host -/

/-- W3, W4. -/
theorem test_address_width_override :
    construct { cfg 32 with bwOverride := some 4 } = none ∧
      addressWidth { cfg 32 with bwOverride := some 6 } = 6 ∧
      construct { cfg 32 with bwOverride := some 6 } ≠ none := by decide

/-- W7, W8, W10. -/
theorem test_bus_rejects :
    busRead (cfg 256) [] "0000101".toList = none ∧ busRead (cfg 256) [] "00001012".toList = none ∧
      busRead (cfg 200) [] "11001000".toList = none ∧ busRead (cfg 201) [] "11001000".toList = some 0 := by decide

/-- W9. -/
theorem test_bus_round_trip :
    (busWrite (cfg 256) [] "11111111".toList (-3)).bind (fun m => busRead (cfg 256) m "11111111".toList) =
      some (-3) := by decide

/-- K1 to K3: equal counts, the earliest inserted goes. -/
theorem test_lfu_ties :
    let ca := calls (lfu 3) [("a", some 1), ("b", some 2), ("c", some 3), ("d", some 4)] (flushedCache (lfu 3))
    freqs ca = [(key "b", 1), (key "c", 1), (key "d", 1)] ∧
      freqs (calls (lfu 3) [("e", some 5)] ca) = [(key "c", 1), (key "d", 1), (key "e", 1)] := by decide

/-- K4 to K6: a key that comes back starts at 1. -/
theorem test_lfu_counts_afresh :
    freqs (calls (lfu 2) [("a", some 1), ("b", some 2), ("a", some 3), ("c", some 4), ("b", some 5)]
      (flushedCache (lfu 2))) = [(key "a", 2), (key "b", 1)] := by decide

/-- K7: a hit protects. -/
theorem test_lru_hit_protects :
    (calls (cfg 256) [("a", some 1), ("b", some 2), ("a", none), ("c", some 3)] (flushedCache (cfg 256))) =
      { table := [entry "a" 1, entry "c" 3], recency := [key "a", key "c"] } := by decide

/-- K8: a miss does not. -/
theorem test_lru_miss_touches_nothing :
    (calls (cfg 256) [("a", some 1), ("b", some 2), ("x", none), ("c", some 3)] (flushedCache (cfg 256))) =
      { table := [entry "b" 2, entry "c" 3], recency := [key "b", key "c"] } := by decide

/-- 70_reset_and_hazards.md R263: one good line, a bad address, a bad value, no comma. -/
theorem test_preload :
    (preload [" 00000101 , 9 ".toList, "101,7".toList, "00000110,x".toList, "00000111".toList]
      State.reset).mem = [(5, 9)] := by decide

/-- Its reports: the three lines that load nothing. -/
theorem test_preload_reports :
    hostEvents (.preload [" 00000101 , 9 ".toList, "101,7".toList, "00000110,x".toList, "00000111".toList])
      State.reset = [.badDataLine "101,7".toList, .badDataLine "00000110,x".toList, .badDataLine "00000111".toList] := by
  decide

/-! ### Witnesses: for each statement with hypotheses, values that meet them, clause by clause -/

/-- LRU, CE true, cell 10 holds 42, and the Cache holds it beside a placeholder. -/
def warm : State :=
  { regs [(1, 10), (2, 7)] (ready (cfg 256) 0 "LW,R1,R3,0") with
    ce := true
    mem := [(10, 42)]
    cache := Cache.mk [placeholder 1, entry "00001010" 42] [.empty 1, key "00001010"] }

/-- LFU with both entries in use. -/
def counts : Cache := Cache.mk [counted "00001010" 42 3, counted "00001011" 5 1] []

/-- LFU just after a first store. -/
def halfCounts : Cache := Cache.mk [placeholder 1, counted "00001010" 42 1] []

/-- LRU with both entries in use. -/
def recents : Cache :=
  Cache.mk [entry "00001010" 42, entry "00001011" 5] [key "00001011", key "00001010"]

theorem test_witness_cache_inv_lru : Cache.Inv (cfg 256) warm.cache :=
  ⟨by decide, by decide, by decide, show List.Perm _ _ by decide⟩

theorem test_witness_cache_inv_lru_full : Cache.Inv (cfg 256) recents :=
  ⟨by decide, by decide, by decide, show List.Perm _ _ by decide⟩

theorem test_witness_cache_inv_lfu : Cache.Inv (lfu 2) halfCounts :=
  ⟨by decide, by decide, by decide, show _ = _ by decide⟩

theorem test_witness_cache_inv_lfu_full : Cache.Inv (lfu 2) counts :=
  ⟨by decide, by decide, by decide, show _ = _ by decide⟩

/-- The invariant of warm, and so of a state that runs. -/
theorem test_witness_inv : warm.Inv :=
  ⟨by decide, by decide, by decide, ⟨by decide, by decide, by decide⟩, test_witness_cache_inv_lru, trivial⟩

/-- The invariant with CE false. -/
theorem test_witness_inv_ce_false : ({ warm with ce := false } : State).Inv :=
  ⟨by decide, by decide, by decide, ⟨by decide, by decide, by decide⟩, test_witness_cache_inv_lru, trivial⟩

/-! Decode and encode -/

theorem test_witness_DecodeOfEncodeIsTheInstruction :
    (Instr.add 8 0 8).wf 9 = true ∧ (Instr.jal (-1)).wf 8 = true ∧ (Instr.sw 0 8 (-5)).wf 9 = true := by decide

theorem test_witness_DecodedInstructionIsWellFormed :
    decode 9 "ADD,R8,R0,R0".toList = .ok (.add 8 0 0) ∧ decode 8 "JAL,1".toList = .ok (.jal 1) := by decide

theorem test_witness_WhitespaceAroundALineIsTrimmed :
    ∀ c ∈ [' ', '\t', '\n', Char.ofNat 0x0B, Char.ofNat 0x0C] ++ ['\r'],
      c.toNat ∈ [0x20, 0x09, 0x0A, 0x0B, 0x0C, 0x0D] := by
  intro c h
  fin_cases h <;> decide

theorem test_witness_OpcodeTokenIsMatchedWithoutCase :
    opcodeOf "cAcHe".toList = some .cache ∧ opcodeTable.all (fun op => "MUL".toList != op.spelling) = true ∧
      trim "mul,R1".toList ≠ [] ∧ tokens "mul,R1".toList = ["mul".toList, "R1".toList] ∧
      tokens ",R1".toList = [[], "R1".toList] ∧ opcodeOf [] = none := by decide

theorem test_witness_WrongOperandCountIsSkipped :
    trim "ADD,R1,R2".toList ≠ [] ∧ tokens "ADD,R1,R2".toList = "ADD".toList :: ["R1".toList, "R2".toList] ∧
      opcodeOf "ADD".toList = some .add ∧ ["R1".toList, "R2".toList].length ≠ Opcode.add.operandCount ∧
      tokens "HALT,".toList = "HALT".toList :: [[]] ∧ [([] : Line)].length ≠ Opcode.halt.operandCount := by decide

theorem test_witness_FormatsPlaceTheirOperands :
    (tokens "SLT,R8,R0,r2".toList = ["SLT".toList, "R8".toList, "R0".toList, "r2".toList] ∧
      parseReg 9 "R8".toList = .ok 8 ∧ parseReg 9 "R0".toList = .ok 0 ∧ parseReg 9 "r2".toList = .ok 2 ∧
      opcodeOf "SLT".toList = some .slt) ∧
    (tokens "sw,R0,R8,-1".toList = ["sw".toList, "R0".toList, "R8".toList, "-1".toList] ∧
      parseInt "-1".toList = .ok (-1) ∧ opcodeOf "sw".toList = some .sw) ∧
    (tokens "CACHE,002".toList = ["CACHE".toList, "002".toList] ∧ parseInt "002".toList = .ok 2 ∧
      opcodeOf "CACHE".toList = some .cache) ∧
    tokens "halt".toList = ["halt".toList] ∧ opcodeOf "halt".toList = some .halt := by decide

theorem test_witness_RegisterTokensReadAsTheRuleSays :
    (parseReg 9 "R08".toList = .ok 8 ∧ parseReg 9 "r9".toList = .error .registerOutOfRange) ∧
    ¬ ∃ (r : Char) (ds : Line), "R".toList = r :: ds ∧ (r = 'R' ∨ r = 'r') ∧ ds ≠ [] ∧
      ∀ c ∈ ds, '0' ≤ c ∧ c ≤ '9' := by
  refine ⟨by decide, ?_⟩
  rintro ⟨r, ds, h, -, hn, -⟩
  exact hn (List.cons.inj h).2.symm

theorem test_witness_IntegerTokensReadAsTheRuleSays :
    parseInt "+0012".toList = .ok 12 ∧ parseInt "-7".toList = .ok (-7) ∧
    ¬ ∃ ds : Line, ds ≠ [] ∧ (∀ c ∈ ds, '0' ≤ c ∧ c ≤ '9') ∧
      ("".toList = ds ∨ "".toList = '+' :: ds ∨ "".toList = '-' :: ds) := by
  refine ⟨by decide, by decide, ?_⟩
  rintro ⟨ds, hn, -, h | h | h⟩
  · exact hn h.symm
  · cases h
  · cases h

theorem test_witness_CacheModeAndLinkRegisterAreChecked :
    (trim "CACHE,3".toList ≠ [] ∧ tokens "CACHE,3".toList = ["CACHE".toList, "3".toList] ∧
      parseInt "3".toList = .ok 3 ∧ opcodeOf "CACHE".toList = some .cache) ∧ parseInt "-1".toList = .ok (-1) ∧
    tokens "JAL,1".toList = ["JAL".toList, "1".toList] ∧ opcodeOf "JAL".toList = some .jal := by decide

/-! Values, addresses, construction -/

theorem test_witness_NormalisationIsTheSignedWrap :
    (cfg 256).xlen = .inf ∧ ({ cfg 256 with xlen := .finite 32 } : Config).xlen = .finite (31 + 1) ∧
      normValue { cfg 256 with xlen := .finite 32 } 2147483648 = -2147483648 := by decide

theorem test_witness_AddressWidthIsTheLeastThatFits :
    (cfg 257).bwOverride = none ∧ ({ cfg 32 with bwOverride := some 6 } : Config).bwOverride = some 6 ∧
      2 ^ addressWidth { cfg 32 with bwOverride := some 4 } < ({ cfg 32 with bwOverride := some 4 } : Config).memSize ∧
      addressWidth (cfg 257) = 9 ∧ addressWidth (cfg 1024) = 10 ∧ addressWidth (cfg 1025) = 11 := by decide

theorem test_witness_ValidAddressesAreTheCellStrings :
    legal (cfg 100) = true ∧ 99 < (cfg 100).memSize ∧ 7 < addressWidth (cfg 100) := by decide

theorem test_witness_InvalidAddressesFailAtBothPorts :
    (∃ ch ∈ "00001012".toList, ch ≠ '0' ∧ ch ≠ '1') ∧ "0000101".toList.length ≠ addressWidth (cfg 256) ∧
      (cfg 200).memSize ≤ bitsValue "11001000".toList :=
  ⟨⟨'2', by decide, by decide, by decide⟩, by decide, by decide⟩

theorem test_witness_BusReadsBackWhatWasWritten :
    Memory.wf [(5, 9)] = true ∧ busValid (cfg 256) "11111111".toList = true ∧
      busValid (cfg 256) "00000101".toList = true ∧ "00000101".toList ≠ "11111111".toList := by decide

theorem test_witness_BusClearZeroesEveryCell :
    ({ warm with rs := .halted } : State).rs ≠ .running ∧ busValid (cfg 256) "00001010".toList = true := by decide

theorem test_witness_ConstructionRefusesIllegalArguments :
    legal Config.named = true ∧ legal { cfg 256 with xlen := .finite 2 } = true ∧
      legal { cfg 256 with xlen := .finite 1 } = false ∧ legal { cfg 256 with nreg := 0 } = false ∧
      legal { cfg 256 with cap := 0 } = false ∧ legal (cfg 0) = false ∧
      legal { cfg 1 with bwOverride := some 0 } = false ∧ legal { cfg 257 with bwOverride := some 8 } = false ∧
      legal { cfg 256 with bwOverride := some 8 } = true ∧ legal { cfg 256 with pcStep := 0 } = false := by decide

/-! The Cache -/

theorem test_witness_LookupAnswersPresentKeys :
    cachedValue "00001011".toList warm.cache = none ∧ cachedValue "00001010".toList warm.cache = some 42 ∧
      cachedValue "00001010".toList counts = some 42 ∧ (lfu 2).evict = .lfu ∧ (cfg 256).evict = .lru := by decide

/-- A key present and one absent, under LRU; a placeholder evicted, under LFU. -/
theorem test_witness_StoreInsertsOrOverwrites :
    Cache.Inv (cfg 256) recents ∧ Cache.Inv (lfu 2) halfCounts ∧ 1 ≤ (lfu 2).cap ∧ 1 ≤ (cfg 256).cap ∧ key "00001010" ∈ recents.table.map CacheEntry.key ∧
      key "00000001" ∉ recents.table.map CacheEntry.key ∧
      storeVictim (cfg 256) (key "00000001") recents = some (key "00001011") ∧
      storeVictim (lfu 2) (key "00000001") halfCounts = some (.empty 1) :=
  ⟨test_witness_cache_inv_lru_full, test_witness_cache_inv_lfu, by decide, by decide, by decide, by decide, by decide,
    by decide⟩

theorem test_witness_LfuVictimIsTheEarliestLeastUsed :
    Cache.Inv (lfu 2) halfCounts ∧ (lfu 2).evict = .lfu ∧ halfCounts.table ≠ [] ∧
      .empty 1 ∈ halfCounts.table.map CacheEntry.key ∧ Cache.Inv (lfu 2) counts ∧
      victim (lfu 2) counts = some (key "00001011") :=
  ⟨test_witness_cache_inv_lfu, by decide, by decide, by decide, test_witness_cache_inv_lfu_full, by decide⟩

theorem test_witness_LruStoreEvictsTheLeastRecent :
    Cache.Inv (cfg 256) recents ∧ (cfg 256).evict = .lru ∧ 1 ≤ (cfg 256).cap ∧
      key "00000001" ∉ recents.table.map CacheEntry.key ∧ key "00001011" ∈ recents.table.map CacheEntry.key :=
  ⟨test_witness_cache_inv_lru_full, by decide, by decide, by decide, by decide⟩

/-! Instructions -/

/-- What AddWritesTheSum, AddiWritesTheSumWithItsImmediate, SubWritesTheDifference and SltWritesOneOrZero ask, at the
first and the last register, with operands less, equal and greater. BNE, JAL, LW and SW ask the same of theirs. -/
theorem test_witness_register_instructions :
    warm.regs.length = warm.cfg.nreg ∧ 8 < warm.cfg.nreg ∧ 0 < warm.cfg.nreg ∧ legal warm.cfg = true ∧
      8 ≤ warm.cfg.nreg ∧ readReg 0 warm < readReg 1 warm ∧ readReg 8 warm ≤ readReg 0 warm := by decide

/-- At pc 0 the offset -2 gives -3, the offset -1 gives 1, and offsets between do not exist. -/
theorem test_witness_BneBranchesWhenNotEqual :
    readReg 0 warm = readReg 8 warm ∧ readReg 1 warm ≠ readReg 0 warm ∧
      0 ≤ (warm.pc : Int) + 4 + 4 * (-1) + warm.cfg.pcStep ∧ (warm.pc : Int) + 4 + 4 * (-2) + warm.cfg.pcStep < 0 := by
  decide

theorem test_witness_JumpSetsThePc : (0 : Int) ≤ 0 ∧ (-1 : Int) < 0 := by decide

theorem test_witness_JalLinksAndJumps :
    (State.constructed { cfg 256 with nreg := 8 }).regs.length = 8 ∧ (0 : Int) ≤ 0 ∧ (-1 : Int) < 0 := by decide

/-- CE false at address 10; a hit at 10; misses at 0 and 255; below 0 and at 256 with STOP and with SKIP. -/
theorem test_witness_LwLoadsThroughTheCacheOrTheBus :
    (readReg 1 warm + 0 = (10 : Nat) ∧ 10 < warm.cfg.memSize ∧ ({ warm with ce := false } : State).ce = false) ∧
    (warm.ce = true ∧ cachedValue (binBW warm.cfg 10) warm.cache = some 42) ∧
    (readReg 1 warm + 245 = (255 : Nat) ∧ 255 < warm.cfg.memSize ∧
      cachedValue (binBW warm.cfg 255) warm.cache = none) ∧
    (readReg 1 warm + (-10) = (0 : Nat) ∧ cachedValue (binBW warm.cfg 0) warm.cache = none) ∧
    readReg 1 warm + (-11) < 0 ∧ (warm.cfg.memSize : Int) ≤ readReg 1 warm + 246 ∧ warm.cfg.onFatal = .stop ∧
    ({ warm with cfg := { warm.cfg with onFatal := .skip } } : State).cfg.onFatal = .skip := by decide

theorem test_witness_SwStoresToTheBusAndTheCache :
    legal warm.cfg = true ∧ Memory.wf warm.mem = true ∧ readReg 1 warm + 245 = (255 : Nat) ∧ 255 < warm.cfg.memSize ∧
      warm.ce = true ∧ ({ warm with ce := false } : State).ce = false ∧ readReg 1 warm + (-11) < 0 ∧
      (warm.cfg.memSize : Int) ≤ readReg 1 warm + 246 := by decide

theorem test_witness_CacheModesActOneAtATime : warm.cfg.evict = .lru := by decide

theorem test_witness_InstructionOfAMissingRegisterIsSkipped :
    (Instr.add 9 0 0).wf warm.cfg.nreg = false ∧
      (Instr.jal 0).wf (State.constructed { cfg 256 with nreg := 7 }).cfg.nreg = false := by decide

/-! The step -/

theorem test_witness_StepRunsTheDecodedInstruction :
    warm.rs = .running ∧ warm.program[warm.pc]? = some "LW,R1,R3,0".toList ∧
      decode warm.cfg.nreg "LW,R1,R3,0".toList = .ok (.lw 1 3 0) := by decide

theorem test_witness_UndecodableLineIsSkipped :
    (ready (cfg 256) 5 "HALT,").rs = .running ∧ (ready (cfg 256) 5 "HALT,").program[5]? = some "HALT,".toList ∧
      decode (cfg 256).nreg "HALT,".toList = .error .operandCount := by decide

theorem test_witness_RunPastTheEndCompletes :
    ({ warm with pc := 1 } : State).rs = .running ∧
      ({ warm with pc := 1 } : State).program.length ≤ ({ warm with pc := 1 } : State).pc := by decide

theorem test_witness_NoStepUnlessRunning :
    State.reset.rs ≠ .running ∧ ({ warm with rs := .completed } : State).rs ≠ .running ∧
      ({ warm with rs := .faulted (.negativePc 0 (-3)) } : State).rs ≠ .running := by decide

/-- For RunningMachineAlwaysSteps, InstrCounterCountsContinue, NextPcIsTheTables, RunStopsOnlyForThreeReasons,
StepKeepsConfigurationAndProgram, CountersNeverDecrease: a Continue, a HALT, a skip, the end and a fatal-tier error that
stops. -/
theorem test_witness_steps :
    legal warm.cfg = true ∧ fetch warm = .run (.lw 1 3 0) ∧ (stepped warm).map State.rs = some .running ∧
      fetch (ready (cfg 256) 5 "halt") = .run .halt ∧
      (stepped (ready (cfg 256) 5 "halt")).map State.rs = some .halted ∧
      fetch (ready (cfg 256) 5 "HALT,") = .skip .operandCount ∧ fetch { warm with pc := 1 } = .ended ∧
      (stepped { warm with pc := 1 }).map State.rs = some .completed ∧
      fetch (ready (cfg 256) 2 "J,-1") = .run (.j (-1)) ∧
      (stepped (ready (cfg 256) 2 "J,-1")).map State.rs = some (.faulted (.negativePc 2 (-4))) := by decide

/-- Some instructions raise a fatal-tier error and some do not: SW one below the cells and one past them, LW inside. -/
theorem test_witness_raisesFatal :
    raisesFatal (.sw 1 2 (-11)) warm ∧ raisesFatal (.sw 1 2 246) warm ∧ ¬ raisesFatal (.lw 1 3 0) warm ∧
      raisesFatal (.bne 1 0 (-2)) warm ∧ ¬ raisesFatal (.bne 1 0 (-1)) warm ∧ raisesFatal (.j (-1)) warm ∧
      ¬ raisesFatal (.jal 0) warm := by
  simp only [raisesFatal]
  decide

theorem test_witness_FatalErrorWritesNothing :
    (Instr.sw 1 2 (-11)).wf warm.cfg.nreg = true ∧ raisesFatal (.sw 1 2 (-11)) warm :=
  ⟨by decide, test_witness_raisesFatal.1⟩

/-- For InstructionsWriteOnlyTheirRegisters, OnlySwChangesCells, CacheSideIsWrittenOnlyByItsInstructions,
CountersNeverDecrease: instructions that answer a next state, with and without each effect. -/
theorem test_witness_frames :
    (ran (.add 8 1 2) warm).map (readReg 8) = some 17 ∧ (ran (.jal 0) warm).map (readReg 7) = some 4 ∧
      (ran (.lw 1 3 0) warm).map (readReg 3) = some 42 ∧ (ran (.sw 1 2 0) warm).map State.mem = some [(10, 7)] ∧
      (ran (.cache .disable) warm).map State.ce = some false := by decide

/-- A hit, a miss that evicts, a store that evicts, a store that does not. -/
theorem test_witness_TraceShowsHitsMissesAndEvictions :
    legal warm.cfg = true ∧ warm.ce = true ∧ readReg 1 warm + 1 = (11 : Nat) ∧ 11 < warm.cfg.memSize ∧
      fetch warm = .run (.lw 1 3 0) ∧ cachedValue (binBW warm.cfg 10) warm.cache = some 42 ∧
      storeVictim warm.cfg (.addr (binBW warm.cfg 11)) warm.cache = some (.empty 1) ∧
      cachedValue (binBW warm.cfg 11) warm.cache = none ∧
      fetch { warm with program := ["SW,R1,R2,1".toList] } = .run (.sw 1 2 1) ∧
      fetch { warm with program := ["LW,R1,R2,1".toList] } = .run (.lw 1 2 1) ∧
      storeVictim warm.cfg (.addr (binBW warm.cfg 10)) warm.cache = none := by decide

/-- TraceShowsHitsMissesAndEvictions, the miss that evicts nothing: a table shorter than its capacity, as no run has. -/
theorem test_witness_a_miss_without_eviction :
    let s : State := { warm with program := ["LW,R1,R2,1".toList], cache := Cache.mk [placeholder 1] [.empty 1] }
    legal s.cfg = true ∧ s.ce = true ∧ readReg 1 s + 1 = (11 : Nat) ∧ 11 < s.cfg.memSize ∧
      fetch s = .run (.lw 1 2 1) ∧ cachedValue (binBW s.cfg 11) s.cache = none ∧
      storeVictim s.cfg (.addr (binBW s.cfg 11)) s.cache = none := by decide

/-! Loads after loads and stores -/

theorem test_witness_LoadAfterLoadHits :
    warm.Inv ∧ warm.ce = true ∧ 3 < warm.cfg.nreg ∧ readReg 1 warm + 0 = (10 : Nat) ∧ 10 < warm.cfg.memSize ∧
      (ran (.lw 1 3 0) warm).map (readReg 1) = some 10 :=
  ⟨test_witness_inv, by decide, by decide, by decide, by decide, by decide⟩

/-- The stale entry is there: CE false at the SW, and the key present. -/
theorem test_witness_LoadAfterStoreGivesTheValueOrTheStaleEntry :
    ({ warm with ce := false } : State).Inv ∧ ({ warm with ce := false } : State).ce = false ∧
      2 < warm.cfg.nreg ∧ readReg 1 warm + 0 = (10 : Nat) ∧ 10 < warm.cfg.memSize ∧
      cachedValue (binBW warm.cfg 10) warm.cache = some 42 ∧ readReg 2 warm = 7 ∧
      (ran (.sw 1 2 0) { warm with ce := false }).map (readReg 1) = some 10 :=
  ⟨test_witness_inv_ce_false, by decide, by decide, by decide, by decide, by decide, by decide, by decide⟩

theorem test_witness_FlushMakesTheNextLoadMiss :
    warm.Inv ∧ warm.ce = true ∧
      (ran (.cache .flush) warm).map (fun u => readReg 1 u + 245) = some ((255 : Nat) : Int) ∧
      255 < warm.cfg.memSize :=
  ⟨test_witness_inv, by decide, by decide, by decide⟩

/-! The host -/

theorem test_witness_RunKeepsEverythingButPcAndStatus : State.reset.rs ≠ .running := by decide

theorem test_witness_PreloadWritesTheBusOnly :
    (∀ c ∈ " 00000101 ".toList, c ≠ ',') ∧ parseInt (trim " 9 ".toList) = .ok 9 ∧
      busWrite (cfg 256) [] (trim " 00000101 ".toList) 9 = some [(5, 9)] ∧
      parseInt (trim "x".toList) = .error .badInteger ∧ busValid (cfg 256) (trim "101".toList) = false ∧
      ∀ c ∈ "00000111".toList, c ≠ ',' :=
  ⟨by simp, by decide, by decide, by decide, by decide, by simp⟩

/-! Invariants and whole-machine rules -/

theorem test_witness_ConstructionEstablishesTheInvariant :
    legal { lfu 1 with nreg := 1, memSize := 1, xlen := .finite 2, wpol := .writeBack } = true := by decide

theorem test_witness_HostKeepsTheInvariant :
    ({ warm with rs := .idle } : State).Inv ∧ (hostAct .cacheFlush { warm with rs := .idle }).isSome = true :=
  ⟨⟨by decide, by decide, by decide, ⟨by decide, by decide, by decide⟩, test_witness_cache_inv_lru, trivial⟩,
    by decide⟩

theorem test_witness_StepKeepsTheInvariant : warm.Inv ∧ (stepped warm).isSome = true :=
  ⟨test_witness_inv, by decide⟩

/-- The same instance under write-back with its entry dirty. -/
theorem test_witness_WritePolicyIsInvisible :
    sameButWritePolicy warm { warm with
      cfg := { warm.cfg with wpol := .writeBack }
      cache := Cache.mk [placeholder 1, { entry "00001010" 42 with dirty := true }] [.empty 1, key "00001010"] } ∧
    (stepped warm).isSome = true ∧ (stepped State.reset).isSome = false :=
  ⟨show _ = _ by decide, by decide, by decide⟩

theorem cachedValue_one (k : Line) (k' : String) (v : Int) (r : List CacheKey) :
    cachedValue k (Cache.mk [placeholder 1, entry k' v] r) = if k = k'.toList then some v else none := by
  by_cases h : k'.toList = k
  · simp [cachedValue, findEntry, placeholder, entry, h]
  · simp [cachedValue, findEntry, placeholder, entry, h]
    exact fun h' => h h'.symm

/-- The Cache of warm agrees with the bus. -/
theorem test_witness_CoherentCacheIsTransparent :
    warm.Inv ∧ coherent warm ∧ fetch warm = .run (.lw 1 3 0) ∧ (stepped warm).isSome = true ∧
      readReg 1 warm + 0 = (10 : Nat) ∧ 10 < warm.cfg.memSize := by
  refine ⟨test_witness_inv, fun k v _ hv => ?_, by decide, by decide, by decide, by decide⟩
  rw [show warm.cache = Cache.mk [placeholder 1, entry "00001010" 42] [.empty 1, key "00001010"] from rfl,
    cachedValue_one] at hv
  split at hv
  · rename_i hk
    subst hk
    cases hv
    decide
  · cases hv

end Sys2Proof.Tests
end

/-! The construction arguments and the program: no operation of a step writes them (00_scope.md R9, 10_state.md R42). -/

namespace Sys2Proof.Machine

@[simp] theorem applyCacheMode_cfg (mode : CacheMode) (s : State) : (applyCacheMode mode s).cfg = s.cfg := by
  cases mode <;> rfl

@[simp] theorem applyCacheMode_program (mode : CacheMode) (s : State) :
    (applyCacheMode mode s).program = s.program := by
  cases mode <;> rfl

/-- Every shape is built from field updates, none of which is of `cfg`. -/
theorem ExecShape.cfg_eq {s t : State} {i : Instr} (h : ExecShape s i t) : t.cfg = s.cfg := by
  cases h <;> simp

/-- Every shape is built from field updates, none of which is of `program`. -/
theorem ExecShape.program_eq {s t : State} {i : Instr} (h : ExecShape s i t) : t.program = s.program := by
  cases h <;> simp

/-- Settles O44, by the three ways a step answers a next state; a decoded instruction's by its shape. -/
theorem stepKeepsConfigurationAndProgram : Obligations.StepKeepsConfigurationAndProgram := by
  intro s t h
  obtain ⟨-, ⟨-, -, rfl⟩ | ⟨r, -, rfl⟩ | ⟨line, i, -, -, -, hexec⟩⟩ := step_cases h
  · exact ⟨endRun_cfg s, endRun_program s⟩
  · exact ⟨skipLine_cfg s, skipLine_program s⟩
  · exact ⟨(exec_shape hexec).cfg_eq, (exec_shape hexec).program_eq⟩

end Sys2Proof.Machine

/-! The rules about every step (10_state.md). The inversion lemma `exec_shape` is read once for each field of the state,
and the rules follow from what it says there. -/

namespace Sys2Proof.Machine

/-! ### The CACHE instruction's effect -/

@[simp] theorem applyCacheMode_regs (mode : CacheMode) (s : State) : (applyCacheMode mode s).regs = s.regs := by
  cases mode <;> rfl

@[simp] theorem applyCacheMode_pc (mode : CacheMode) (s : State) : (applyCacheMode mode s).pc = s.pc := by
  cases mode <;> rfl

@[simp] theorem applyCacheMode_statInstr (mode : CacheMode) (s : State) :
    (applyCacheMode mode s).statInstr = s.statInstr := by
  cases mode <;> rfl

@[simp] theorem applyCacheMode_statHits (mode : CacheMode) (s : State) :
    (applyCacheMode mode s).statHits = s.statHits := by
  cases mode <;> rfl

@[simp] theorem applyCacheMode_statMisses (mode : CacheMode) (s : State) :
    (applyCacheMode mode s).statMisses = s.statMisses := by
  cases mode <;> rfl

@[simp] theorem applyCacheMode_rs (mode : CacheMode) (s : State) : (applyCacheMode mode s).rs = s.rs := by
  cases mode <;> rfl

@[simp] theorem applyCacheMode_mem (mode : CacheMode) (s : State) : (applyCacheMode mode s).mem = s.mem := by
  cases mode <;> rfl

/-! ### Registers, cells, Cache, status and counters after an instruction -/

section Fields

variable {s t : State} {i : Instr}

/-- The registers stay, or the one of the writes column takes a normalised value (10_state.md R33). -/
theorem ExecShape.regs_cases (h : ExecShape s i t) :
    t.regs = s.regs ∨ ∃ d v, writtenRegs i = [d] ∧ t.regs = s.regs.set d (normValue s.cfg v) := by
  cases h with
  | wrote _ d v _ _ hw _ => exact .inr ⟨d, v, hw, rfl⟩
  | loadedBus _ d _ _ v | loadedHit _ d _ _ _ v | loadedMiss _ d _ _ v => exact .inr ⟨d, v, rfl, rfl⟩
  | cacheMode mode => exact .inl (by simp)
  | skipped | addressSkipped | addressFault | pcFault | branched | halted | storedBus | storedBoth => exact .inl rfl

/-- The cells stay, or an SW made one bus write (20_memory.md R102). -/
theorem ExecShape.mem_cases (h : ExecShape s i t) :
    t.mem = s.mem ∨ ∃ b r offset k v, i = .sw b r offset ∧ busWrite s.cfg s.mem k v = some t.mem := by
  cases h with
  | storedBus b r offset k _ _ hb | storedBoth b r offset k _ _ hb => exact .inr ⟨b, r, offset, k, _, rfl, hb⟩
  | cacheMode mode => exact .inl (by simp)
  | skipped | addressSkipped | addressFault | pcFault | wrote | branched | halted | loadedBus | loadedHit
  | loadedMiss => exact .inl rfl

/-- The Cache stays, or LW or SW used one of its ports, or CACHE 2 flushed it (42_loadstore.md R190, R193; 43_system.md
R200). -/
theorem ExecShape.cache_cases (h : ExecShape s i t) :
    t.cache = s.cache ∨
      (accessesMemory i = true ∧ ∃ k, t.cache = (cacheLookup s.cfg k s.cache).2 ∨
        ∃ v, t.cache = cacheStore s.cfg k v s.cache) ∨
      (i = .cache .flush ∧ t.cache = cacheFlush s.cfg) := by
  cases h with
  | loadedHit _ _ _ k => exact .inr (.inl ⟨rfl, k, .inl rfl⟩)
  | loadedMiss _ _ _ k | storedBoth _ _ _ k => exact .inr (.inl ⟨rfl, k, .inr ⟨_, rfl⟩⟩)
  | cacheMode mode =>
    cases mode with
    | disable | enable => exact .inl rfl
    | flush => exact .inr (.inr ⟨rfl, rfl⟩)
  | skipped | addressSkipped | addressFault | pcFault | wrote | branched | halted | loadedBus | storedBus =>
    exact .inl rfl

/-- CE stays, or CACHE 0 or CACHE 1 set it (10_state.md R39). -/
theorem ExecShape.ce_cases (h : ExecShape s i t) : t.ce = s.ce ∨ i = .cache .disable ∨ i = .cache .enable := by
  cases h with
  | cacheMode mode => cases mode <;> simp [applyCacheMode]
  | skipped | addressSkipped | addressFault | pcFault | wrote | branched | halted | loadedBus | loadedHit
  | loadedMiss | storedBus | storedBoth => exact .inl rfl

/-- The run status stays, or the run ended at this pc: at HALT, or at a fatal-tier error that stops it (60_exceptions.md
R214 to R217, R220). -/
theorem ExecShape.rs_cases (h : ExecShape s i t) :
    t.rs = s.rs ∨ (t.pc = s.pc ∧
      ((i = .halt ∧ t.rs = .halted) ∨
        (∃ a, rejected s.cfg a ∧ s.cfg.onFatal = .stop ∧ t.rs = .faulted (.invalidAddress s.pc a)) ∨
        ∃ target, target < 0 ∧ t.rs = .faulted (.negativePc s.pc target))) := by
  cases h with
  | halted => exact .inr ⟨rfl, .inl ⟨rfl, rfl⟩⟩
  | addressFault _ a _ ha hs => exact .inr ⟨rfl, .inr (.inl ⟨a, ha, hs, rfl⟩)⟩
  | pcFault _ target _ hneg => exact .inr ⟨rfl, .inr (.inr ⟨target, hneg, rfl⟩)⟩
  | cacheMode mode => exact .inl (by simp)
  | skipped | addressSkipped | wrote | branched | loadedBus | loadedHit | loadedMiss | storedBus | storedBoth =>
    exact .inl rfl

/-- The instruction counter stays or counts the instruction (10_state.md R51). -/
theorem ExecShape.statInstr_cases (h : ExecShape s i t) :
    t.statInstr = s.statInstr ∨ t.statInstr = s.statInstr + 1 := by
  cases h with
  | cacheMode mode => exact .inr (by simp)
  | skipped | addressSkipped | addressFault | pcFault | halted => exact .inl rfl
  | wrote | branched | loadedBus | loadedHit | loadedMiss | storedBus | storedBoth => exact .inr rfl

/-- The hit and miss counters stay, or an LW raised one of them (42_loadstore.md R190). -/
theorem ExecShape.hitsMisses_cases (h : ExecShape s i t) :
    (t.statHits = s.statHits ∧ t.statMisses = s.statMisses) ∨
      ((∃ b r offset, i = .lw b r offset) ∧ s.statHits ≤ t.statHits ∧ s.statMisses ≤ t.statMisses) := by
  cases h with
  | loadedHit b r offset => exact .inr ⟨⟨b, r, offset, rfl⟩, Nat.le_succ _, le_rfl⟩
  | loadedMiss b r offset => exact .inr ⟨⟨b, r, offset, rfl⟩, le_rfl, Nat.le_succ _⟩
  | cacheMode mode => exact .inl (by simp)
  | skipped | addressSkipped | addressFault | pcFault | wrote | branched | halted | loadedBus | storedBus
  | storedBoth => exact .inl ⟨rfl, rfl⟩

end Fields

/-! ### The invariant -/

/-- A legal Cache has an entry to evict (00_scope.md R9). -/
theorem cap_pos_of_legal {c : Config} (h : legal c = true) : 1 ≤ c.cap := by
  simp only [legal, Bool.and_eq_true, decide_eq_true_eq, and_assoc] at h
  obtain ⟨-, hcap, -⟩ := h
  exact hcap

/-- The bus's write port keeps the bus's invariant (20_memory.md R72, R74). -/
theorem busWrite_inv {c : Config} {m m' : Memory} {k : Line} {v : Int} (h : busWrite c m k v = some m')
    (hm : Memory.Inv c m) : Memory.Inv c m' := by
  have hform := busWrite_wf h hm.form
  unfold busWrite at h
  split at h
  case isFalse => cases h
  case isTrue hvalid =>
    cases h
    have hrange : bitsValue k < c.memSize := by
      simp only [busValid, Bool.and_eq_true, decide_eq_true_eq] at hvalid
      exact hvalid.2
    refine ⟨hform, fun p hp => ?_, fun p hp => ?_⟩
    · rcases mem_cellWrite hp with rfl | hp
      · exact hrange
      · exact hm.range p hp
    · rcases mem_cellWrite hp with rfl | hp
      · exact normValue_idem c v
      · exact hm.normal p hp

/-- The five clauses of the invariant that do not speak of the run status carry over to a state that keeps all they
speak of, whose status is true of it. -/
theorem State.Inv.of_sameData {s t : State} (hs : s.Inv) (hcfg : t.cfg = s.cfg) (hregs : t.regs = s.regs)
    (hmem : t.mem = s.mem) (hcache : t.cache = s.cache) (hstatus : t.statusFits) : t.Inv where
  legalCfg := hcfg ▸ hs.legalCfg
  regCount := by rw [hregs, hcfg]; exact hs.regCount
  regNormal := by rw [hregs, hcfg]; exact hs.regNormal
  memInv := by rw [hmem, hcfg]; exact hs.memInv
  cacheInv := by rw [hcache, hcfg]; exact hs.cacheInv
  status := hstatus

/-- A running state's status says nothing of it. -/
theorem statusFits_of_running {s : State} (h : s.rs = .running) : s.statusFits := by
  simp [State.statusFits, h]

section Invariant

variable {s t : State} {i : Instr}

theorem ExecShape.regs_length (h : ExecShape s i t) : t.regs.length = s.regs.length := by
  rcases h.regs_cases with hr | ⟨d, v, -, hr⟩ <;> simp [hr]

theorem ExecShape.regs_normal (h : ExecShape s i t) (hs : ∀ v ∈ s.regs, normValue s.cfg v = v) :
    ∀ v ∈ t.regs, normValue s.cfg v = v := by
  rcases h.regs_cases with hr | ⟨d, w, -, hr⟩ <;> rw [hr]
  · exact hs
  · intro v hv
    rcases List.mem_or_eq_of_mem_set hv with hv | rfl
    · exact hs v hv
    · exact normValue_idem s.cfg w

theorem ExecShape.mem_inv (h : ExecShape s i t) (hs : Memory.Inv s.cfg s.mem) : Memory.Inv s.cfg t.mem := by
  rcases h.mem_cases with hm | ⟨_, _, _, k, v, -, hm⟩
  · rwa [hm]
  · exact busWrite_inv hm hs

theorem ExecShape.cache_inv (h : ExecShape s i t) (hcap : 1 ≤ s.cfg.cap) (hs : Cache.Inv s.cfg s.cache) :
    Cache.Inv s.cfg t.cache := by
  rcases h.cache_cases with hc | ⟨-, k, hc | ⟨v, hc⟩⟩ | ⟨-, hc⟩ <;> rw [hc]
  · exact hs
  · exact cacheLookup_inv k hs
  · exact cacheStore_inv k v hcap hs
  · exact flushedCache_inv s.cfg

/-- The status a decoded instruction leaves is true of the line and the address it ran at. -/
theorem ExecShape.statusFits (h : ExecShape s i t) (hlegal : legal s.cfg = true) (hrun : s.rs = .running) {line : Line}
    (hline : s.program[s.pc]? = some line) (hdecode : decode s.cfg.nreg line = .ok i) : t.statusFits := by
  rcases h.rs_cases with hr | ⟨hpc, ⟨rfl, hr⟩ | ⟨a, ha, hstop, hr⟩ | ⟨target, hneg, hr⟩⟩
  · exact statusFits_of_running (hr.trans hrun)
  · simp only [State.statusFits, hr, hpc, h.program_eq, h.cfg_eq]
    exact ⟨line, hline, hdecode⟩
  · simp only [State.statusFits, hr, hpc, h.cfg_eq, true_and]
    exact ⟨out_of_rejected hlegal ha, hstop⟩
  · simpa only [State.statusFits, hr, hpc, true_and] using hneg

/-- A decoded instruction keeps the invariant, clause by clause. -/
theorem ExecShape.inv (h : ExecShape s i t) (hs : s.Inv) (hrun : s.rs = .running) {line : Line}
    (hline : s.program[s.pc]? = some line) (hdecode : decode s.cfg.nreg line = .ok i) : t.Inv where
  legalCfg := h.cfg_eq ▸ hs.legalCfg
  regCount := by rw [h.regs_length, h.cfg_eq]; exact hs.regCount
  regNormal := by rw [h.cfg_eq]; exact h.regs_normal hs.regNormal
  memInv := by rw [h.cfg_eq]; exact h.mem_inv hs.memInv
  cacheInv := by rw [h.cfg_eq]; exact h.cache_inv (cap_pos_of_legal hs.legalCfg) hs.cacheInv
  status := h.statusFits hs.legalCfg hrun hline hdecode

end Invariant

/-- Settles O57, by the three ways a step answers a next state; a decoded instruction's by its shape, field by field. -/
theorem stepKeepsTheInvariant : Obligations.StepKeepsTheInvariant := by
  intro s t hs h
  obtain ⟨hrun, ⟨-, hend, rfl⟩ | ⟨r, -, rfl⟩ | ⟨line, i, -, hline, hdecode, hexec⟩⟩ := step_cases h
  · exact hs.of_sameData rfl rfl rfl rfl hend
  · exact hs.of_sameData rfl rfl rfl rfl (statusFits_of_running hrun)
  · exact (exec_shape hexec).inv hs hrun hline hdecode

/-! ### A running machine steps -/

theorem withRegs_next (ks : List Nat) (effect : State → State) (s : State) :
    ∃ t, withRegs ks effect s = .next t := by
  rcases withRegs_cases ks effect s with h | h <;> exact ⟨_, h⟩

/-- No instruction's meaning is a fault or a refusal (10_state.md R53). -/
theorem exec_next (i : Instr) (s : State) : ∃ t, exec i s = .next t := by
  cases i with
  | add | addi | sub | slt | jal | lw | sw => exact withRegs_next _ _ s
  | bne a b offset =>
    unfold exec execBne
    exact withRegs_next _ _ s
  | j | cache | halt => exact ⟨_, rfl⟩

theorem step_of_fetch_run {s : State} {i : Instr} (h : fetch s = .run i) : step s = exec i s := by
  simp [step, h]

/-- Settles O39, by what fetch can find of a running machine. -/
theorem runningMachineAlwaysSteps : Obligations.RunningMachineAlwaysSteps := by
  intro s hrun
  rcases fetch_cases s with ⟨-, hn⟩ | ⟨-, -, hf⟩ | ⟨line, -, -, ⟨r, -, hf⟩ | ⟨i, -, hf⟩⟩
  · exact absurd hrun hn
  · exact ⟨endRun s, by simp [step, hf]⟩
  · exact ⟨skipLine s, by simp [step, hf]⟩
  · rw [step_of_fetch_run hf]
    exact exec_next i s

/-! ### What the decoder yields is well-formed -/

theorem parseReg_lt {n k : Nat} {l : Line} (h : parseReg n l = .ok k) : k < n := by
  cases l with
  | nil => cases h
  | cons c ds =>
    simp only [parseReg] at h
    split at h
    · split at h
      · cases h; assumption
      · cases h
    · cases h

/-- A computation that answers came from an answer of its first part. -/
theorem except_bind_ok {ε α β : Type} {x : Except ε α} {f : α → Except ε β} {b : β} (h : x >>= f = .ok b) :
    ∃ a, x = .ok a ∧ f a = .ok b := by
  cases x with
  | error e => cases h
  | ok a => exact ⟨a, rfl, h⟩

theorem decodeThreeRegs_ok {n : Nat} {mk : Nat → Nat → Nat → Instr} {ops : List Line} {i : Instr}
    (h : decodeThreeRegs n mk ops = .ok i) : ∃ x y z, x < n ∧ y < n ∧ z < n ∧ i = mk x y z := by
  unfold decodeThreeRegs at h
  split at h
  · obtain ⟨x, hx, h⟩ := except_bind_ok h
    obtain ⟨y, hy, h⟩ := except_bind_ok h
    obtain ⟨z, hz, h⟩ := except_bind_ok h
    cases h
    exact ⟨x, y, z, parseReg_lt hx, parseReg_lt hy, parseReg_lt hz, rfl⟩
  · cases h

theorem decodeTwoRegsInt_ok {n : Nat} {mk : Nat → Nat → Int → Instr} {ops : List Line} {i : Instr}
    (h : decodeTwoRegsInt n mk ops = .ok i) : ∃ x y v, x < n ∧ y < n ∧ i = mk x y v := by
  unfold decodeTwoRegsInt at h
  split at h
  · obtain ⟨x, hx, h⟩ := except_bind_ok h
    obtain ⟨y, hy, h⟩ := except_bind_ok h
    obtain ⟨v, -, h⟩ := except_bind_ok h
    cases h
    exact ⟨x, y, v, parseReg_lt hx, parseReg_lt hy, rfl⟩
  · cases h

theorem decodeOneInt_ok {mk : Int → Except SkipReason Instr} {ops : List Line} {i : Instr}
    (h : decodeOneInt mk ops = .ok i) : ∃ v, mk v = .ok i := by
  unfold decodeOneInt at h
  split at h
  · obtain ⟨v, -, h⟩ := except_bind_ok h
    exact ⟨v, h⟩
  · cases h

/-- Each format's registers are below NREG, and JAL's link register exists (30_encoding.md R136, R140). -/
theorem decodeOperands_wf {n : Nat} {op : Opcode} {ops : List Line} {i : Instr} (h : decodeOperands n op ops = .ok i) :
    i.wf n = true := by
  cases op with
  | add | sub | slt =>
    obtain ⟨x, y, z, hx, hy, hz, rfl⟩ := decodeThreeRegs_ok h
    simp [Instr.wf, hx, hy, hz]
  | addi | bne | lw | sw =>
    obtain ⟨x, y, v, hx, hy, rfl⟩ := decodeTwoRegsInt_ok h
    simp [Instr.wf, hx, hy]
  | j =>
    obtain ⟨v, hv⟩ := decodeOneInt_ok h
    cases hv
    rfl
  | jal =>
    obtain ⟨v, hv⟩ := decodeOneInt_ok h
    split at hv
    · rename_i h7
      cases hv
      simpa [Instr.wf] using h7
    · cases hv
  | cache =>
    obtain ⟨v, hv⟩ := decodeOneInt_ok h
    cases hm : cacheModeOf v with
    | error r => rw [hm] at hv; cases hv
    | ok mode => rw [hm] at hv; cases hv; rfl
  | halt =>
    cases ops with
    | nil => cases h; rfl
    | cons t ts => cases h

/-- A decoded instruction is well-formed (30_encoding.md R146). -/
theorem decode_wf {n : Nat} {l : Line} {i : Instr} (h : decode n l = .ok i) : i.wf n = true := by
  unfold decode at h
  split at h
  · cases h
  · unfold decodeTokens at h
    split at h
    · cases h
    · split at h
      · cases h
      · exact decodeOperands_wf h

/-! ### Fatal-tier error or Continue -/

/-- A load in range leaves the pc at the base advance and is counted, whichever way it reads. -/
theorem loadInto_continues {t : Nat} {a : Int} {s : State} (hc : legal s.cfg = true)
    (ha : ¬ (a < 0 ∨ (s.cfg.memSize : Int) ≤ a)) :
    (loadInto t a s).pc = s.pc + s.cfg.pcStep ∧ (loadInto t a s).statInstr = s.statInstr + 1 := by
  lift a to Nat using by omega
  have hlt : a < s.cfg.memSize := by omega
  cases hce : s.ce with
  | false => rw [loadInto_bus hc hlt hce]; exact ⟨rfl, rfl⟩
  | true =>
    cases hv : cachedValue (binBW s.cfg a) s.cache with
    | none => rw [loadInto_miss hc hlt hce hv]; exact ⟨rfl, rfl⟩
    | some v => rw [loadInto_hit hc hlt hce hv]; exact ⟨rfl, rfl⟩

/-- A store in range leaves the pc at the base advance and is counted, through the Cache or not. -/
theorem storeFrom_continues {v a : Int} {s : State} (hc : legal s.cfg = true)
    (ha : ¬ (a < 0 ∨ (s.cfg.memSize : Int) ≤ a)) :
    (storeFrom v a s).pc = s.pc + s.cfg.pcStep ∧ (storeFrom v a s).statInstr = s.statInstr + 1 := by
  lift a to Nat using by omega
  rw [storeFrom_in hc (by omega)]
  cases s.ce <;> exact ⟨rfl, rfl⟩

/-- An instruction that raises a fatal-tier error does what `fatalError` does: InvalidAddress for LW and SW, NegativePc
for the others (60_exceptions.md R214). -/
theorem exec_of_raisesFatal {i : Instr} {s : State} (hw : i.wf s.cfg.nreg = true) (h : raisesFatal i s) :
    ∃ e, exec i s = .next (fatalError e s) ∧ (accessesMemory i = true ↔ ∃ p a, e = .invalidAddress p a) := by
  cases i with
  | add | addi | sub | slt | cache | halt => exact h.elim
  | bne a b offset =>
    simp only [Instr.wf, Bool.and_eq_true, decide_eq_true_eq] at hw
    obtain ⟨ha, hb⟩ := hw
    obtain ⟨hne, hneg⟩ := h
    refine ⟨.negativePc s.pc (branchTarget offset s), ?_, by simp [accessesMemory]⟩
    rw [exec_bne_taken ha hb hne, transfer_neg s (by simpa [branchTarget] using hneg), fatalError_negativePc]
  | j target =>
    have hneg : 4 * target < 0 := by simp only [raisesFatal] at h; omega
    refine ⟨.negativePc s.pc (4 * target), ?_, by simp [accessesMemory]⟩
    rw [exec_j, transfer_neg s hneg, fatalError_negativePc]
  | jal target =>
    have hneg : 4 * target < 0 := by simp only [raisesFatal] at h; omega
    refine ⟨.negativePc s.pc (4 * target), ?_, by simp [accessesMemory]⟩
    rw [exec_jal (by simpa [Instr.wf] using hw), transfer_neg _ hneg, fatalError_negativePc]
  | lw b t offset =>
    simp only [Instr.wf, Bool.and_eq_true, decide_eq_true_eq] at hw
    obtain ⟨hb, ht⟩ := hw
    refine ⟨.invalidAddress s.pc (readReg b s + offset), ?_, by simp [accessesMemory]⟩
    rw [exec_lw hb ht, loadInto_out h]
  | sw b t offset =>
    simp only [Instr.wf, Bool.and_eq_true, decide_eq_true_eq] at hw
    obtain ⟨hb, ht⟩ := hw
    refine ⟨.invalidAddress s.pc (readReg b s + offset), ?_, by simp [accessesMemory]⟩
    rw [exec_sw hb ht, storeFrom_out h]

/-- An instruction that ends with Continue sets its own next pc and is counted (10_state.md R49, R51). -/
theorem exec_continues {i : Instr} {s : State} (hc : legal s.cfg = true) (hw : i.wf s.cfg.nreg = true)
    (hhalt : i ≠ .halt) (h : ¬ raisesFatal i s) :
    ∃ t, exec i s = .next t ∧ (t.pc : Int) = continuePc i s ∧ t.statInstr = s.statInstr + 1 := by
  cases i with
  | add d a b =>
    simp only [Instr.wf, Bool.and_eq_true, decide_eq_true_eq, and_assoc] at hw
    obtain ⟨hd, ha, hb⟩ := hw
    exact ⟨_, exec_add hd ha hb, rfl, rfl⟩
  | sub d a b =>
    simp only [Instr.wf, Bool.and_eq_true, decide_eq_true_eq, and_assoc] at hw
    obtain ⟨hd, ha, hb⟩ := hw
    exact ⟨_, exec_sub hd ha hb, rfl, rfl⟩
  | slt d a b =>
    simp only [Instr.wf, Bool.and_eq_true, decide_eq_true_eq, and_assoc] at hw
    obtain ⟨hd, ha, hb⟩ := hw
    exact ⟨_, exec_slt hd ha hb, rfl, rfl⟩
  | addi d a imm =>
    simp only [Instr.wf, Bool.and_eq_true, decide_eq_true_eq] at hw
    obtain ⟨hd, ha⟩ := hw
    exact ⟨_, exec_addi hd ha, rfl, rfl⟩
  | bne a b offset =>
    simp only [Instr.wf, Bool.and_eq_true, decide_eq_true_eq] at hw
    obtain ⟨ha, hb⟩ := hw
    by_cases he : readReg a s = readReg b s
    · exact ⟨_, exec_bne_equal ha hb he, by simp [continuePc, he], rfl⟩
    · have hpos : 0 ≤ branchTarget offset s := by
        have hn : ¬ ((s.pc : Int) + 4 + 4 * offset + s.cfg.pcStep < 0) := fun hneg => h ⟨he, hneg⟩
        simp only [branchTarget]
        omega
      refine ⟨_, exec_bne_taken ha hb he, ?_, ?_⟩ <;> rw [transfer_nonneg s hpos]
      · simpa [continuePc, he, branchTarget] using Int.toNat_of_nonneg hpos
      · rfl
  | j target =>
    have hpos : 0 ≤ 4 * target := by simp only [raisesFatal] at h; omega
    refine ⟨_, exec_j target s, ?_, ?_⟩ <;> rw [transfer_nonneg s hpos]
    · exact Int.toNat_of_nonneg hpos
    · rfl
  | jal target =>
    have hpos : 0 ≤ 4 * target := by simp only [raisesFatal] at h; omega
    refine ⟨_, exec_jal (by simpa [Instr.wf] using hw), ?_, ?_⟩ <;> rw [transfer_nonneg _ hpos]
    · exact Int.toNat_of_nonneg hpos
    · rfl
  | lw b t offset =>
    simp only [Instr.wf, Bool.and_eq_true, decide_eq_true_eq] at hw
    obtain ⟨hb, ht⟩ := hw
    obtain ⟨hpc, hcount⟩ := loadInto_continues (t := t) hc h
    exact ⟨_, exec_lw hb ht, by simp [hpc, continuePc], hcount⟩
  | sw b t offset =>
    simp only [Instr.wf, Bool.and_eq_true, decide_eq_true_eq] at hw
    obtain ⟨hb, ht⟩ := hw
    obtain ⟨hpc, hcount⟩ := storeFrom_continues (v := readReg t s) hc h
    exact ⟨_, exec_sw hb ht, by simp [hpc, continuePc], hcount⟩
  | cache mode => exact ⟨_, exec_cache mode s, by simp [continuePc], by simp⟩
  | halt => exact absurd rfl hhalt

/-- The step that ran `i` is `exec i`, of a term the decoder yields. -/
theorem step_run {s t : State} {i : Instr} (h : step s = .next t) (hf : fetch s = .run i) :
    exec i s = .next t ∧ i.wf s.cfg.nreg = true := by
  refine ⟨step_of_fetch_run hf ▸ h, ?_⟩
  obtain ⟨-, ⟨hf', -⟩ | ⟨r, hf', -⟩ | ⟨line, j, hf', -, hdecode, -⟩⟩ := step_cases h
  · cases hf.symm.trans hf'
  · cases hf.symm.trans hf'
  · cases hf.symm.trans hf'
    exact decode_wf hdecode

theorem fatalError_statInstr (e : FatalError) (s : State) : (fatalError e s).statInstr = s.statInstr := by
  rcases fatalError_cases e s with ⟨h, -⟩ | ⟨h, -⟩ <;> simp [h]

/-- Settles O40: Continue counts (`exec_continues`); a HALT, a fatal-tier error, a skip and the end of the run do not. -/
theorem instrCounterCountsContinue : Obligations.InstrCounterCountsContinue := by
  intro s t hc h
  constructor
  · intro i hf hhalt hn
    obtain ⟨hexec, hw⟩ := step_run h hf
    obtain ⟨u, hu, -, hcount⟩ := exec_continues hc hw hhalt hn
    cases hexec.symm.trans hu
    exact hcount
  · intro hall
    obtain ⟨-, ⟨-, -, rfl⟩ | ⟨r, -, rfl⟩ | ⟨line, i, hf, -, hdecode, hexec⟩⟩ := step_cases h
    · exact endRun_statInstr s
    · exact skipLine_statInstr s
    · rcases hall i hf with rfl | hraise
      · cases hexec
        exact haltRun_statInstr s
      · obtain ⟨e, he, -⟩ := exec_of_raisesFatal (decode_wf hdecode) hraise
        cases hexec.symm.trans he
        exact fatalError_statInstr e s

/-- Where a fatal-tier error leaves the pc: the base advance for an InvalidAddress that `ON_FATAL` skips, else the
instruction (10_state.md R49). -/
theorem fatalError_pc (e : FatalError) (s : State) :
    ((∃ p a, e = .invalidAddress p a) → s.cfg.onFatal = .skip → (fatalError e s).pc = s.pc + s.cfg.pcStep) ∧
      (¬ (∃ p a, e = .invalidAddress p a) ∨ s.cfg.onFatal = .stop → (fatalError e s).pc = s.pc) := by
  rcases fatalError_cases e s with ⟨h, hskip, haddr⟩ | ⟨h, hstop⟩
  · refine ⟨fun _ _ => by simp [h], ?_⟩
    rintro (hn | hs)
    · exact absurd haddr hn
    · rw [hskip] at hs; cases hs
  · refine ⟨?_, fun _ => by simp [h]⟩
    rintro ⟨p, a, he⟩ hskip
    have hs := hstop p a he
    rw [hskip] at hs
    cases hs

/-- Settles O41, row by row of the table: the end, a skip, Continue and HALT, a fatal-tier error. -/
theorem nextPcIsTheTables : Obligations.NextPcIsTheTables := by
  refine ⟨rfl, fun s t hc h => ⟨fun hf => ?_, fun r hf => ?_, fun i hf hn => ?_, fun i hf hraise => ?_⟩⟩
  · simp only [step, hf] at h
    cases h
    exact endRun_pc s
  · simp only [step, hf] at h
    cases h
    exact skipLine_pc s
  · obtain ⟨hexec, hw⟩ := step_run h hf
    by_cases hhalt : i = .halt
    · subst hhalt
      cases hexec
      rfl
    · obtain ⟨u, hu, hpc, -⟩ := exec_continues hc hw hhalt hn
      cases hexec.symm.trans hu
      exact hpc
  · obtain ⟨hexec, hw⟩ := step_run h hf
    obtain ⟨e, he, hmem⟩ := exec_of_raisesFatal hw hraise
    cases hexec.symm.trans he
    rw [← Bool.not_eq_true, hmem]
    exact fatalError_pc e s

/-! ### What an instruction leaves unchanged -/

/-- Settles O45: the one register a shape may write is that of the writes column. -/
theorem instructionsWriteOnlyTheirRegisters : Obligations.InstructionsWriteOnlyTheirRegisters := by
  intro i s t h
  refine ⟨(exec_shape h).regs_length, fun k hk => ?_⟩
  rcases (exec_shape h).regs_cases with hr | ⟨d, v, hd, hr⟩
  · simp only [readReg, hr]
  · have hne : k ≠ d := by simpa [hd] using hk
    calc readReg k t = readReg k (writeReg d v s) := by simp only [readReg, hr, writeReg_regs]
      _ = readReg k s := readReg_writeReg_ne v s hne

/-- Settles O47, by the shapes' CE and Cache. -/
theorem cacheSideIsWrittenOnlyByItsInstructions : Obligations.CacheSideIsWrittenOnlyByItsInstructions := by
  intro i s t h
  refine ⟨fun h0 h1 => ?_, fun hlw hsw h2 => ?_⟩
  · rcases (exec_shape h).ce_cases with hce | hi | hi
    · exact hce
    · exact absurd hi h0
    · exact absurd hi h1
  · rcases (exec_shape h).cache_cases with hca | ⟨hi, -⟩ | ⟨hi, -⟩
    · exact hca
    · cases i with
      | lw b r offset => exact absurd rfl (hlw b r offset)
      | sw b r offset => exact absurd rfl (hsw b r offset)
      | add | addi | sub | slt | bne | j | jal | cache | halt => cases hi
    · exact absurd hi h2

/-- Settles O48, by the shapes' counters; the end of the run and a skip change none. -/
theorem countersNeverDecrease : Obligations.CountersNeverDecrease := by
  constructor
  · intro s t h
    obtain ⟨-, ⟨-, -, rfl⟩ | ⟨r, -, rfl⟩ | ⟨line, i, -, -, -, hexec⟩⟩ := step_cases h
    · exact ⟨le_rfl, le_rfl, le_rfl⟩
    · exact ⟨le_rfl, le_rfl, le_rfl⟩
    · have hinstr : s.statInstr ≤ t.statInstr := by
        rcases (exec_shape hexec).statInstr_cases with hc | hc <;> omega
      rcases (exec_shape hexec).hitsMisses_cases with ⟨hhits, hmisses⟩ | ⟨-, hhits, hmisses⟩
      · exact ⟨hinstr, hhits.ge, hmisses.ge⟩
      · exact ⟨hinstr, hhits, hmisses⟩
  · intro i s t hlw h
    rcases (exec_shape h).hitsMisses_cases with hsame | ⟨⟨b, r, offset, hi⟩, -⟩
    · exact hsame
    · exact absurd hi (hlw b r offset)

/-! ### Fetch and the start of a run -/

theorem fetch_of_decode {s : State} {line : Line} {i : Instr} (hrun : s.rs = .running)
    (hline : s.program[s.pc]? = some line) (hdecode : decode s.cfg.nreg line = .ok i) : fetch s = .run i := by
  simp [fetch, hrun, hline, hdecode]

theorem fetch_past_end {s : State} (hrun : s.rs = .running) (hend : s.program.length ≤ s.pc) : fetch s = .ended := by
  simp [fetch, hrun, List.getElem?_eq_none hend]

/-- Settles O35: the step of a fetched instruction is its `exec`. -/
theorem stepRunsTheDecodedInstruction : Obligations.StepRunsTheDecodedInstruction := by
  intro s line i hrun hline hdecode
  exact step_of_fetch_run (fetch_of_decode hrun hline hdecode)

/-- Settles O37: past the end there is no line to fetch. -/
theorem runPastTheEndCompletes : Obligations.RunPastTheEndCompletes := by
  intro s hrun hend
  rw [step, fetch_past_end hrun hend]
  rfl

/-- The host's operation takes effect while no run is in progress (70_reset_and_hazards.md R264). -/
theorem hostAct_of_not_running {s : State} (op : HostOp) (h : s.rs ≠ .running) :
    hostAct op s = some (applyHostOp op s) := by
  unfold hostAct
  cases hrs : s.rs with
  | running => exact absurd hrs h
  | idle | halted | completed | faulted => rfl

/-- Settles O54: between runs the host's `run` is `startRun`. -/
theorem runKeepsEverythingButPcAndStatus : Obligations.RunKeepsEverythingButPcAndStatus := by
  intro p s h
  exact hostAct_of_not_running (.run p) h

end Sys2Proof.Machine

/-! The write policy (20_memory.md R96). `State.policyFree` forgets it and the dirty flags; every operation commutes
with it, up to the step itself, so no rule reads what it forgets. -/

namespace Sys2Proof.Machine

/-- The arguments with `WPOL` write-through, the policy that sets no dirty flag. -/
def asWriteThrough (c : Config) : Config := { c with wpol := .writeThrough }

/-- The Cache with every dirty flag clear. -/
def Cache.undirtied (ca : Cache) : Cache := { ca with table := ca.table.map CacheEntry.undirtied }

/-- The state without what depends on the write policy. -/
def State.policyFree (s : State) : State := { s with cfg := asWriteThrough s.cfg, cache := s.cache.undirtied }

/-- Two states differ at most in the write policy and in dirty flags exactly where they agree without them. -/
theorem sameButWritePolicy_iff {s t : State} : sameButWritePolicy s t ↔ t.policyFree = s.policyFree := by
  constructor
  · intro h
    exact congrArg (fun u : State => { u with cfg := asWriteThrough u.cfg }) h
  · intro h
    exact congrArg (fun u : State => { u with cfg := { u.cfg with wpol := s.cfg.wpol } }) h

/-! ### The Cache's operations -/

theorem findEntry_undirtied (key : CacheKey) (t : List CacheEntry) :
    findEntry key (t.map CacheEntry.undirtied) = (findEntry key t).map CacheEntry.undirtied := by
  rw [findEntry, List.find?_map]
  rfl

theorem cachedValue_undirtied (k : Line) (ca : Cache) : cachedValue k ca.undirtied = cachedValue k ca := by
  simp only [cachedValue, Cache.undirtied, findEntry_undirtied]
  cases findEntry (.addr k) ca.table <;> rfl

theorem updateEntry_undirtied {key : CacheKey} {f g : CacheEntry → CacheEntry}
    (h : ∀ e, g e.undirtied = (f e).undirtied) (t : List CacheEntry) :
    updateEntry key g (t.map CacheEntry.undirtied) = (updateEntry key f t).map CacheEntry.undirtied := by
  simp only [updateEntry, List.map_map]
  refine List.map_congr_left fun e _ => ?_
  by_cases hk : e.key = key
  · have hk' : e.undirtied.key = key := hk
    simp [hk, hk', h]
  · have hk' : e.undirtied.key ≠ key := hk
    simp [hk, hk']

theorem bumpFreq_undirtied (c : Config) (e : CacheEntry) :
    bumpFreq (asWriteThrough c) e.undirtied = (bumpFreq c e).undirtied := by
  cases h : c.evict <;> simp [bumpFreq, asWriteThrough, h, CacheEntry.undirtied]

theorem markDirty_undirtied (c : Config) (e : CacheEntry) :
    markDirty (asWriteThrough c) e.undirtied = (markDirty c e).undirtied := by
  cases h : c.wpol <;> simp [markDirty, asWriteThrough, h, CacheEntry.undirtied]

/-- The counters decide the LFU victim, no dirty flag does. -/
theorem leastUsed_undirtied : ∀ t : List CacheEntry,
    leastUsed (t.map CacheEntry.undirtied) = (leastUsed t).map CacheEntry.undirtied
  | [] => rfl
  | e :: t => by
    simp only [List.map_cons, leastUsed, leastUsed_undirtied t]
    cases leastUsed t with
    | none => rfl
    | some m => exact (apply_ite (Option.map CacheEntry.undirtied) (m.freq < e.freq) (some m) (some e)).symm

theorem victim_undirtied (c : Config) (ca : Cache) : victim (asWriteThrough c) ca.undirtied = victim c ca := by
  cases h : c.evict with
  | lru => simp [victim, asWriteThrough, h, Cache.undirtied]
  | lfu =>
    simp only [victim, asWriteThrough, h, Cache.undirtied, leastUsed_undirtied]
    cases leastUsed ca.table <;> rfl

theorem storeVictim_undirtied (c : Config) (key : CacheKey) (ca : Cache) :
    storeVictim (asWriteThrough c) key ca.undirtied = storeVictim c key ca := by
  have hevicts : storeEvicts (asWriteThrough c) key ca.undirtied = storeEvicts c key ca := by
    simp [storeEvicts, Cache.undirtied, findEntry_undirtied, asWriteThrough]
  simp only [storeVictim, hevicts, victim_undirtied]

theorem evictKey_undirtied (key : CacheKey) (ca : Cache) : evictKey key ca.undirtied = (evictKey key ca).undirtied := by
  simp only [evictKey, Cache.undirtied, List.filter_map]
  rfl

theorem makeRoom_undirtied (c : Config) (key : CacheKey) (ca : Cache) :
    makeRoom (asWriteThrough c) key ca.undirtied = (makeRoom c key ca).undirtied := by
  simp only [makeRoom, storeVictim_undirtied]
  cases storeVictim c key ca with
  | none => rfl
  | some w => exact evictKey_undirtied w ca

theorem putEntry_undirtied (key : CacheKey) (v : Int) (t : List CacheEntry) :
    putEntry key v (t.map CacheEntry.undirtied) = (putEntry key v t).map CacheEntry.undirtied := by
  simp only [putEntry, findEntry_undirtied, Option.isSome_map]
  split
  · exact updateEntry_undirtied (f := setValue v) (fun _ => rfl) t
  · simp [CacheEntry.undirtied]

theorem cacheLookup_undirtied (c : Config) (k : Line) (ca : Cache) :
    cacheLookup (asWriteThrough c) k ca.undirtied = Prod.map id Cache.undirtied (cacheLookup c k ca) := by
  simp only [cacheLookup, cachedValue_undirtied]
  cases cachedValue k ca with
  | none => rfl
  | some v => simpa [Cache.undirtied, touchRecency, asWriteThrough] using updateEntry_undirtied (bumpFreq_undirtied c) _

theorem cacheStore_undirtied (c : Config) (k : Line) (v : Int) (ca : Cache) :
    cacheStore (asWriteThrough c) k v ca.undirtied = (cacheStore c k v ca).undirtied := by
  have hstored : ∀ e : CacheEntry, markDirty (asWriteThrough c) (bumpFreq (asWriteThrough c) e.undirtied) =
      (markDirty c (bumpFreq c e)).undirtied := fun e => by rw [bumpFreq_undirtied, markDirty_undirtied]
  simp only [cacheStore, makeRoom_undirtied]
  rw [Cache.undirtied, Cache.undirtied, putEntry_undirtied, updateEntry_undirtied hstored]
  rfl

theorem cacheFlush_undirtied (c : Config) : cacheFlush (asWriteThrough c) = (cacheFlush c).undirtied := by
  simp only [cacheFlush, flushedCache, Cache.undirtied, List.map_map]
  rfl

/-! ### The engine's load and store path -/

theorem memRead_policyFree (a : Int) (s : State) :
    memRead a s.policyFree = (memRead a s).map (Prod.map id State.policyFree) := by
  have hrender : renderAddr s.policyFree.cfg a = renderAddr s.cfg a := rfl
  have hbus : ∀ k, busRead s.policyFree.cfg s.policyFree.mem k = busRead s.cfg s.mem k := fun _ => rfl
  have hce : s.policyFree.ce = s.ce := rfl
  have hlookup : ∀ k, cacheLookup s.policyFree.cfg k s.policyFree.cache =
      Prod.map id Cache.undirtied (cacheLookup s.cfg k s.cache) := fun k => cacheLookup_undirtied s.cfg k s.cache
  have hstore : ∀ k v, cacheStore s.policyFree.cfg k v s.policyFree.cache = (cacheStore s.cfg k v s.cache).undirtied :=
    fun k v => cacheStore_undirtied s.cfg k v s.cache
  simp only [memRead, hrender, hbus, hce, hlookup, hstore]
  cases renderAddr s.cfg a with
  | none => rfl
  | some k =>
    cases hread : busRead s.cfg s.mem k with
    | none => simp [hread]
    | some cell =>
      cases s.ce with
      | false => simp [hread]
      | true =>
        rcases hl : cacheLookup s.cfg k s.cache with ⟨_ | v, ca⟩
        · simp [hread, hl]; rfl
        · simp [hread, hl]; rfl

theorem memWrite_policyFree (a v : Int) (s : State) :
    memWrite a v s.policyFree = (memWrite a v s).map State.policyFree := by
  have hrender : renderAddr s.policyFree.cfg a = renderAddr s.cfg a := rfl
  have hbus : ∀ k, busWrite s.policyFree.cfg s.policyFree.mem k v = busWrite s.cfg s.mem k v := fun _ => rfl
  have hce : s.policyFree.ce = s.ce := rfl
  have hstore : ∀ k, cacheStore s.policyFree.cfg k v s.policyFree.cache = (cacheStore s.cfg k v s.cache).undirtied :=
    fun k => cacheStore_undirtied s.cfg k v s.cache
  simp only [memWrite, hrender, hbus, hce, hstore]
  cases renderAddr s.cfg a with
  | none => rfl
  | some k =>
    cases hwrite : busWrite s.cfg s.mem k v with
    | none => simp [hwrite]
    | some m => cases s.ce <;> simp [hwrite] <;> rfl

/-! ### Instructions and the step -/

/-- An outcome with its next state changed. -/
def mapNext (f : State → State) : Host.Outcome State Fault Refusal → Host.Outcome State Fault Refusal
  | .next s => .next (f s)
  | .fault r => .fault r
  | .refused r => .refused r

theorem mapNext_eq_next {f : State → State} {o : Host.Outcome State Fault Refusal} {u : State}
    (h : mapNext f o = .next u) : ∃ s, o = .next s ∧ f s = u := by
  cases o with
  | next s => cases h; exact ⟨s, rfl, rfl⟩
  | fault | refused => cases h

theorem mapNext_eq_fault {f : State → State} {o : Host.Outcome State Fault Refusal} {r : Fault}
    (h : mapNext f o = .fault r) : o = .fault r := by
  cases o with
  | fault => cases h; rfl
  | next | refused => cases h

theorem fatalError_policyFree (e : FatalError) (s : State) :
    fatalError e s.policyFree = (fatalError e s).policyFree := by
  cases e with
  | negativePc => rfl
  | invalidAddress p a =>
    have honFatal : s.policyFree.cfg.onFatal = s.cfg.onFatal := rfl
    cases h : s.cfg.onFatal with
    | stop => rw [fatalError_stop h, fatalError_stop (honFatal.trans h)]; rfl
    | skip => rw [fatalError_skip h, fatalError_skip (honFatal.trans h)]; rfl

theorem transfer_policyFree (next : Int) (written s : State) :
    transfer next written.policyFree s.policyFree = (transfer next written s).policyFree := by
  unfold transfer
  split
  · exact fatalError_policyFree _ s
  · rfl

theorem loadInto_policyFree (t : Nat) (a : Int) (s : State) :
    loadInto t a s.policyFree = (loadInto t a s).policyFree := by
  simp only [loadInto, memRead_policyFree]
  cases memRead a s with
  | none => exact fatalError_policyFree _ s
  | some p => rfl

theorem storeFrom_policyFree (v a : Int) (s : State) :
    storeFrom v a s.policyFree = (storeFrom v a s).policyFree := by
  simp only [storeFrom, memWrite_policyFree]
  cases memWrite a v s with
  | none => exact fatalError_policyFree _ s
  | some u => rfl

theorem applyCacheMode_policyFree (mode : CacheMode) (s : State) :
    applyCacheMode mode s.policyFree = (applyCacheMode mode s).policyFree := by
  cases mode with
  | disable | enable => rfl
  | flush => exact congrArg (setCache · s.policyFree) (cacheFlush_undirtied s.cfg)

theorem withRegs_policyFree (effect : State → State) (h : ∀ s : State, effect s.policyFree = (effect s).policyFree)
    (ks : List Nat) (s : State) :
    withRegs ks effect s.policyFree = mapNext State.policyFree (withRegs ks effect s) := by
  have hregs : regsExist s.policyFree.cfg ks = regsExist s.cfg ks := rfl
  unfold withRegs
  rw [hregs, h]
  cases regsExist s.cfg ks <;> rfl

/-- No instruction reads the write policy or a dirty flag. -/
theorem exec_policyFree (i : Instr) (s : State) : exec i s.policyFree = mapNext State.policyFree (exec i s) := by
  cases i with
  | add d a b =>
    exact withRegs_policyFree (fun s => writeResult d (readReg a s + readReg b s) s) (fun _ => rfl) _ s
  | addi d a imm => exact withRegs_policyFree (fun s => writeResult d (readReg a s + imm) s) (fun _ => rfl) _ s
  | sub d a b =>
    exact withRegs_policyFree (fun s => writeResult d (readReg a s - readReg b s) s) (fun _ => rfl) _ s
  | slt d a b =>
    exact withRegs_policyFree (fun s => writeResult d (setLess (readReg a s) (readReg b s)) s) (fun _ => rfl) _ s
  | bne a b offset =>
    unfold exec execBne
    refine withRegs_policyFree _ (fun s => ?_) _ s
    exact (congrArg (ite _ · (advance s).policyFree) (transfer_policyFree (branchTarget offset s) s s)).trans
      (apply_ite State.policyFree _ _ _).symm
  | j target => exact congrArg Host.Outcome.next (transfer_policyFree _ s s)
  | jal target =>
    exact withRegs_policyFree (fun s => transfer (jumpTarget target) (writeReg linkReg (linkValue s) s) s)
      (fun s => transfer_policyFree _ (writeReg linkReg (linkValue s) s) s) _ s
  | lw b t offset =>
    exact withRegs_policyFree (fun s => loadInto t (effectiveAddr b offset s) s)
      (fun s => loadInto_policyFree t (effectiveAddr b offset s) s) _ s
  | sw b t offset =>
    exact withRegs_policyFree (fun s => storeFrom (readReg t s) (effectiveAddr b offset s) s)
      (fun s => storeFrom_policyFree (readReg t s) (effectiveAddr b offset s) s) _ s
  | cache mode => exact congrArg (fun u => Host.Outcome.next (advance u)) (applyCacheMode_policyFree mode s)
  | halt => rfl

/-- The step commutes with forgetting the write policy and the dirty flags. -/
theorem step_policyFree (s : State) : step s.policyFree = mapNext State.policyFree (step s) := by
  have hfetch : fetch s.policyFree = fetch s := rfl
  unfold step
  rw [hfetch]
  cases fetch s with
  | notRunning | ended | skip => rfl
  | run i => exact exec_policyFree i s

/-- Settles O59: both states step as their common policy-free state does. -/
theorem writePolicyIsInvisible : Obligations.WritePolicyIsInvisible := by
  intro s t h
  have hstep : mapNext State.policyFree (step t) = mapNext State.policyFree (step s) := by
    rw [← step_policyFree, ← step_policyFree, sameButWritePolicy_iff.1 h]
  constructor
  · intro s' hs
    rw [hs] at hstep
    obtain ⟨t', ht, hfree⟩ := mapNext_eq_next hstep
    exact ⟨t', ht, sameButWritePolicy_iff.2 hfree⟩
  · intro hs
    rw [hs] at hstep
    exact mapNext_eq_fault hstep

end Sys2Proof.Machine

/-! The Memory Bus (20_memory.md R70 to R77): its address width, the strings that are valid addresses, and its ports. -/

namespace Sys2Proof.Machine

/-! ### The address width -/

/-- `ceil(log2(n))` is the least exponent whose power reaches `n`. -/
theorem ceilLog2_le_iff {n w : Nat} : ceilLog2 n ≤ w ↔ n ≤ 2 ^ w := by
  unfold ceilLog2
  split
  case isTrue h => exact iff_of_true (Nat.zero_le w) (h.trans Nat.one_le_two_pow)
  case isFalse h =>
    have hlt : (n - 1).log2 < w ↔ n - 1 < 2 ^ w := Nat.log2_lt (by omega)
    omega

theorem addressWidth_of_override {c : Config} {w : Nat} (h : c.bwOverride = some w) : addressWidth c = w := by
  simp [addressWidth, h]

/-- Without an override the widths from BW on are those of at least 8 that number every cell (20_memory.md R71). -/
theorem addressWidth_le_iff {c : Config} (h : c.bwOverride = none) {w : Nat} :
    addressWidth c ≤ w ↔ 8 ≤ w ∧ c.memSize ≤ 2 ^ w := by
  simp [addressWidth, h, ceilLog2_le_iff]

/-- Without an override a memory that needs no more than 8 bits has 8. -/
theorem addressWidth_eq_eight {c : Config} (h : c.bwOverride = none) (hfit : c.memSize ≤ 2 ^ 8) :
    addressWidth c = 8 :=
  le_antisymm ((addressWidth_le_iff h).2 ⟨le_rfl, hfit⟩) ((addressWidth_le_iff h).1 le_rfl).1

/-- Without an override a memory that overflows `w` bits, at least 8, and fits one more has that width. -/
theorem addressWidth_eq_succ {c : Config} (h : c.bwOverride = none) {w : Nat} (hw : 8 ≤ w) (hover : 2 ^ w < c.memSize)
    (hfit : c.memSize ≤ 2 ^ (w + 1)) : addressWidth c = w + 1 := by
  have hle : addressWidth c ≤ w + 1 := (addressWidth_le_iff h).2 ⟨by omega, hfit⟩
  have hgt : ¬ addressWidth c ≤ w := fun hn => by
    obtain ⟨-, hn⟩ := (addressWidth_le_iff h).1 hn
    omega
  omega

theorem construct_none {c : Config} (h : legal c = false) : construct c = none := by
  simp [construct, h]

/-- Settles O12: without an override `addressWidth_le_iff` says which widths BW is the least of. -/
theorem addressWidthIsTheLeastThatFits : Obligations.AddressWidthIsTheLeastThatFits := by
  refine ⟨fun c h => ?_, fun c w => addressWidth_of_override, fun c hover => ?_, fun c h => ?_⟩
  · obtain ⟨hmin, hfit⟩ := (addressWidth_le_iff h).1 le_rfl
    exact ⟨hmin, hfit, fun w h8 hw => (addressWidth_le_iff h).2 ⟨h8, hw⟩⟩
  · refine construct_none (Bool.eq_false_iff.2 fun hlegal => ?_)
    exact absurd (memSize_le_of_legal hlegal) (by omega)
  · refine ⟨?_, ?_, ?_, ?_, ?_, ?_, ?_, ?_⟩ <;> intro hm
    · exact addressWidth_eq_eight h (by omega)
    · exact addressWidth_eq_eight h (by omega)
    · exact addressWidth_eq_eight h (by omega)
    · exact addressWidth_eq_succ (w := 8) h (by omega) (by omega) (by omega)
    · exact addressWidth_eq_succ (w := 8) h (by omega) (by omega) (by omega)
    · exact addressWidth_eq_succ (w := 9) h (by omega) (by omega) (by omega)
    · exact addressWidth_eq_succ (w := 9) h (by omega) (by omega) (by omega)
    · exact addressWidth_eq_succ (w := 10) h (by omega) (by omega) (by omega)

/-! ### Address strings -/

/-- The three conditions of the validator (20_memory.md R72). -/
theorem busValid_iff {c : Config} {s : Line} :
    busValid c s = true ↔ (∀ ch ∈ s, ch = '0' ∨ ch = '1') ∧ s.length = addressWidth c ∧ bitsValue s < c.memSize := by
  simp [busValid, isBit, and_assoc]

/-- Character `i` from the left is bit `w - 1 - i` (00_scope.md R14). -/
theorem binBits_getElem? (a : Nat) : ∀ {w i : Nat}, i < w →
    (binBits w a)[i]? = some (if a.testBit (w - 1 - i) then '1' else '0')
  | w + 1, 0, _ => by simp [binBits, Nat.testBit_eq_decide_div_mod_eq]
  | w + 1, i + 1, h => by
    rw [binBits, List.getElem?_cons_succ, binBits_getElem? a (Nat.lt_of_succ_lt_succ h)]
    congr 4
    omega

/-- The rendering ends with the lowest bit, after the rendering of the half. -/
theorem binBits_succ_eq_append (a : Nat) : ∀ w : Nat,
    binBits (w + 1) a = binBits w (a / 2) ++ [if a % 2 = 1 then '1' else '0']
  | 0 => by simp [binBits]
  | w + 1 => by
    rw [binBits, binBits_succ_eq_append a w, binBits, Nat.div_div_eq_div_mul, ← Nat.pow_succ']
    rfl

theorem bitsValue_append (s : Line) (ch : Char) :
    bitsValue (s ++ [ch]) = 2 * bitsValue s + if ch = '1' then 1 else 0 := by
  simp [bitsValue]

/-- A string of bits is the rendering of the number it spells. -/
theorem binBits_bitsValue {s : Line} (h : ∀ ch ∈ s, ch = '0' ∨ ch = '1') : binBits s.length (bitsValue s) = s := by
  induction s using List.reverseRecOn with
  | nil => rfl
  | append_singleton s ch ih =>
    have hs := ih fun x hx => h x (List.mem_append_left _ hx)
    rw [List.length_append, List.length_singleton, binBits_succ_eq_append, bitsValue_append]
    rcases h ch (by simp) with rfl | rfl
    · simp [hs]
    · have hhalf : (2 * bitsValue s + 1) / 2 = bitsValue s := by omega
      simp [hhalf, hs]

/-- A valid address is the rendering of the cell it spells (20_memory.md R70). -/
theorem binBW_bitsValue {c : Config} {s : Line} (h : busValid c s = true) : binBW c (bitsValue s) = s := by
  obtain ⟨hbits, hlen, -⟩ := busValid_iff.1 h
  rw [binBW, ← hlen, binBits_bitsValue hbits]

/-- Valid addresses of one cell are one string. -/
theorem bitsValue_injective_of_valid {c : Config} {s s' : Line} (h : busValid c s = true) (h' : busValid c s' = true)
    (hv : bitsValue s' = bitsValue s) : s' = s := by
  rw [← binBW_bitsValue h', hv, binBW_bitsValue h]

/-- Settles O13: rendering and `val` are inverse to each other on cells and valid strings. -/
theorem validAddressesAreTheCellStrings : Obligations.ValidAddressesAreTheCellStrings := by
  intro c hlegal
  refine ⟨fun s => ⟨fun hs => ?_, ?_⟩, fun a ha => ?_, fun a i hi => binBits_getElem? a hi⟩
  · obtain ⟨-, -, hrange⟩ := busValid_iff.1 hs
    exact ⟨bitsValue s, hrange, (binBW_bitsValue hs).symm⟩
  · rintro ⟨a, ha, rfl⟩
    exact busValid_binBW hlegal ha
  · exact bitsValue_binBW (ha.trans_le (memSize_le_of_legal hlegal))

/-! ### The ports -/

theorem busRead_of_valid {c : Config} {s : Line} (m : Memory) (h : busValid c s = true) :
    busRead c m s = some (cellRead (bitsValue s) m) := by
  simp [busRead, h]

theorem busWrite_of_valid {c : Config} {s : Line} (m : Memory) (v : Int) (h : busValid c s = true) :
    busWrite c m s v = some (cellWrite (bitsValue s) (normValue c v) m) := by
  simp [busWrite, h]

/-- Settles O14: each of the three failures is one of the validator's conditions refuted. -/
theorem invalidAddressesFailAtBothPorts : Obligations.InvalidAddressesFailAtBothPorts := by
  intro c m s v h
  have hinvalid : ¬ busValid c s = true := fun hvalid => by
    obtain ⟨hbits, hlen, hrange⟩ := busValid_iff.1 hvalid
    rcases h with ⟨ch, hch, h0, h1⟩ | hshape | hout
    · exact (hbits ch hch).elim h0 h1
    · exact hshape hlen
    · omega
  simp [busRead, busWrite, hinvalid]

theorem normValue_inf {c : Config} (v : Int) (h : c.xlen = .inf) : normValue c v = v := by
  simp [normValue, h]

/-- Settles O15, by read after write of the cells; another valid address is another cell. -/
theorem busReadsBackWhatWasWritten : Obligations.BusReadsBackWhatWasWritten := by
  intro c m s v hwf hs
  have hsame := cellRead_cellWrite_same (bitsValue s) (normValue c v) hwf
  refine ⟨_, busWrite_of_valid m v hs, ?_, fun hinf => ?_, fun s' hs' hne => ?_⟩
  · rw [busRead_of_valid _ hs, hsame]
  · rw [busRead_of_valid _ hs, hsame, normValue_inf v hinf]
  · have hcell : bitsValue s' ≠ bitsValue s := fun hv => hne (bitsValue_injective_of_valid hs hs' hv)
    rw [busRead_of_valid _ hs', busRead_of_valid _ hs', cellRead_cellWrite_ne _ hcell]

/-- Settles O16: the host's clear leaves the empty list of cells, and an unlisted cell reads 0. -/
theorem busClearZeroesEveryCell : Obligations.BusClearZeroesEveryCell := by
  intro s h
  exact ⟨setMem busClear s, hostAct_of_not_running .busClear h, fun a ha => busRead_of_valid busClear ha, rfl⟩

/-- Settles O46: the one shape that changes cells is SW's. -/
theorem onlySwChangesCells : Obligations.OnlySwChangesCells := by
  intro i s t hsw h a
  rcases (exec_shape h).mem_cases with hmem | ⟨b, r, offset, _, _, hi, -⟩
  · rw [hmem]
  · exact absurd hi (hsw b r offset)

end Sys2Proof.Machine

/-! The Cache's ports (20_memory.md R90 to R97): what a lookup, a store and an eviction leave. -/

namespace Sys2Proof.Machine

/-! ### Counters, flags and the recency order under each policy -/

theorem bumpFreq_freq_lfu {c : Config} (h : c.evict = .lfu) (e : CacheEntry) : (bumpFreq c e).freq = e.freq + 1 := by
  simp [bumpFreq, h]

theorem bumpFreq_lru {c : Config} (h : c.evict = .lru) (e : CacheEntry) : bumpFreq c e = e := by
  simp [bumpFreq, h]

theorem markDirty_dirty_writeBack {c : Config} (h : c.wpol = .writeBack) (e : CacheEntry) :
    (markDirty c e).dirty = true := by
  simp [markDirty, h]

theorem markDirty_writeThrough {c : Config} (h : c.wpol = .writeThrough) (e : CacheEntry) : markDirty c e = e := by
  simp [markDirty, h]

theorem touchRecency_lfu {c : Config} (h : c.evict = .lfu) (key : CacheKey) (r : List CacheKey) :
    touchRecency c key r = r := by
  simp [touchRecency, h]

theorem touchRecency_lru {c : Config} (h : c.evict = .lru) (key : CacheKey) (r : List CacheKey) :
    touchRecency c key r = r.filter (fun k => k != key) ++ [key] := by
  simp [touchRecency, h]

/-! ### Lookup -/

/-- A projection of the updated table, read off entry by entry. -/
theorem map_updateEntry {α : Type} (g : CacheEntry → α) (key : CacheKey) (f : CacheEntry → CacheEntry)
    (t : List CacheEntry) : (updateEntry key f t).map g = t.map (fun e => if e.key = key then g (f e) else g e) := by
  simp only [updateEntry, List.map_map]
  exact List.map_congr_left fun e _ => apply_ite g (e.key = key) (f e) e

/-- Settles O19, by the two cases of a lookup; a hit's counter and recency by the eviction policy. -/
theorem lookupAnswersPresentKeys : Obligations.LookupAnswersPresentKeys := by
  intro c k ca
  rcases cacheLookup_cases c k ca with ⟨habsent, hmiss⟩ | ⟨v, hv, hhit, htable, hrecency⟩
  · refine ⟨fun _ => hmiss, fun v hv => ?_⟩
    rw [habsent] at hv
    cases hv
  · refine ⟨fun habsent => ?_, fun v' hv' => ⟨?_, ?_, fun hlru => ⟨?_, ?_⟩, fun hlfu => ⟨?_, ?_⟩⟩⟩
    · rw [habsent] at hv
      cases hv
    · rw [hhit, ← hv, hv']
    · simp [htable, map_updateEntry]
    · simp [htable, updateEntry, bumpFreq_lru hlru]
    · rw [hrecency, touchRecency_lru hlru]
    · rw [hrecency, touchRecency_lfu hlfu]
    · simp only [htable, map_updateEntry, bumpFreq_freq_lfu hlfu]

/-! ### The victim -/

/-- A store of a present key evicts nothing (20_memory.md R91). -/
theorem storeVictim_present {c : Config} {key : CacheKey} {ca : Cache} (h : key ∈ ca.table.map CacheEntry.key) :
    storeVictim c key ca = none := by
  have hfound : findEntry key ca.table ≠ none := fun hn => findEntry_none_iff.1 hn h
  simp [storeVictim, storeEvicts, hfound]

/-- A store of a new key into a full table evicts the policy's victim, a key of the table (20_memory.md R91 to R93). -/
theorem storeVictim_absent {c : Config} {key : CacheKey} {ca : Cache} (hcap : 1 ≤ c.cap) (hinv : Cache.Inv c ca)
    (h : key ∉ ca.table.map CacheEntry.key) :
    ∃ w, victim c ca = some w ∧ storeVictim c key ca = some w ∧ w ∈ ca.table.map CacheEntry.key := by
  have hne : ca.table ≠ [] := List.ne_nil_of_length_pos (by rw [hinv.full]; exact hcap)
  obtain ⟨w, hw, hmem⟩ := victim_mem hinv hne
  have hevicts : storeEvicts c key ca = true := by simp [storeEvicts, findEntry_none_iff.2 h, hinv.full]
  exact ⟨w, hw, by rw [storeVictim, if_pos hevicts, hw], hmem⟩

theorem makeRoom_of_none {c : Config} {key : CacheKey} {ca : Cache} (h : storeVictim c key ca = none) :
    makeRoom c key ca = ca := by
  simp [makeRoom, h]

theorem makeRoom_of_some {c : Config} {key w : CacheKey} {ca : Cache} (h : storeVictim c key ca = some w) :
    makeRoom c key ca = evictKey w ca := by
  simp [makeRoom, h]

theorem leastUsed_eq_none {t : List CacheEntry} (h : leastUsed t = none) : t = [] := by
  by_contra hne
  simpa [h] using leastUsed_isSome hne

/-- No entry of the table has a smaller counter than the least used one. -/
theorem leastUsed_le : ∀ {t : List CacheEntry} {m x : CacheEntry}, leastUsed t = some m → x ∈ t → m.freq ≤ x.freq
  | e :: t, m, x, h, hx => by
    unfold leastUsed at h
    split at h
    · rename_i ht
      cases h
      obtain rfl : x = e := by simpa [leastUsed_eq_none ht] using hx
      exact le_rfl
    · rename_i m' ht
      have hrest : x ∈ t → m'.freq ≤ x.freq := leastUsed_le ht
      split at h <;> cases h <;> rcases List.mem_cons.1 hx with rfl | hx
      · omega
      · exact hrest hx
      · exact le_rfl
      · have := hrest hx
        omega

/-- The least used entry splits the table: every entry before it has a greater counter, none after it a smaller one. -/
theorem leastUsed_split : ∀ {t : List CacheEntry} {m : CacheEntry}, leastUsed t = some m →
    ∃ before after, t = before ++ m :: after ∧ (∀ x ∈ before, m.freq < x.freq) ∧ ∀ x ∈ after, m.freq ≤ x.freq
  | e :: t, m, h => by
    have hle : ∀ x ∈ t, m.freq ≤ x.freq := fun x hx => leastUsed_le h (List.mem_cons_of_mem e hx)
    unfold leastUsed at h
    split at h
    · cases h
      exact ⟨[], t, rfl, by simp, hle⟩
    · rename_i m' ht
      split at h
      case isTrue hlt =>
        cases h
        obtain ⟨before, after, rfl, hbefore, hafter⟩ := leastUsed_split ht
        exact ⟨e :: before, after, rfl, List.forall_mem_cons.2 ⟨hlt, hbefore⟩, hafter⟩
      case isFalse =>
        cases h
        exact ⟨[], t, rfl, by simp, hle⟩

/-- A placeholder has never been counted (20_memory.md R82). -/
theorem freq_of_placeholder {c : Config} {e : CacheEntry} {i : Nat} (hk : e.key = .empty i) (h : e.fits c = true) :
    e.freq = 0 := by
  unfold CacheEntry.fits at h
  rw [hk] at h
  cases hv : e.value with
  | none =>
    simp only [hv, Bool.and_eq_true, beq_iff_eq] at h
    obtain ⟨⟨-, hfreq⟩, -⟩ := h
    exact hfreq
  | some v => simp [hv] at h

/-- Under LFU an entry that has never been counted is a placeholder (20_memory.md R97). -/
theorem placeholder_of_freq {c : Config} {e : CacheEntry} (hlfu : c.evict = .lfu) (h : e.fits c = true)
    (hfreq : e.freq = 0) : ∃ j, e.key = .empty j := by
  cases hk : e.key with
  | empty j => exact ⟨j, rfl⟩
  | addr k =>
    obtain ⟨-, -, -, hcounted, -⟩ := (fits_addr hk).1 h
    have := hcounted hlfu
    omega

/-- Settles O21: `leastUsed` splits the table, and a placeholder's counter of 0 is below that of every address entry. -/
theorem lfuVictimIsTheEarliestLeastUsed : Obligations.LfuVictimIsTheEarliestLeastUsed := by
  intro c ca hlfu hne
  obtain ⟨m, hm⟩ := Option.isSome_iff_exists.1 (leastUsed_isSome hne)
  have hvictim : victim c ca = some m.key := by simp [victim, hlfu, hm]
  obtain ⟨before, after, htable, hbefore, hafter⟩ := leastUsed_split hm
  refine ⟨⟨before, m, after, htable, hvictim, hbefore, hafter⟩, fun i hinv hi => ?_⟩
  obtain ⟨p, hp, hkey⟩ := List.mem_map.1 hi
  have hp0 : p.freq = 0 := freq_of_placeholder hkey (hinv.entries p hp)
  have hmp : m.freq ≤ p.freq := leastUsed_le hm hp
  obtain ⟨j, hj⟩ := placeholder_of_freq hlfu (hinv.entries m (leastUsed_mem hm)) (by omega)
  exact ⟨j, hj ▸ hvictim⟩

/-! ### Store -/

theorem findEntry_cacheStore_ne {k k' : Line} (c : Config) (v : Int) (ca : Cache) (h : k' ≠ k) :
    findEntry (.addr k') (cacheStore c k v ca).table =
      if storeVictim c (.addr k) ca = some (.addr k') then none else findEntry (.addr k') ca.table := by
  have hk : CacheKey.addr k' ≠ .addr k := fun he => h (by injection he)
  simp only [cacheStore, findEntry_updateEntry_ne (keepsKey_store c) hk, findEntry_putEntry_ne hk, findEntry_makeRoom]

/-- A store of a new key removes the victim's key and appends the new one (20_memory.md R91, R94). -/
theorem cacheStore_keys_absent {c : Config} {k : Line} {w : CacheKey} {ca : Cache} (v : Int)
    (h : CacheKey.addr k ∉ ca.table.map CacheEntry.key) (hw : storeVictim c (.addr k) ca = some w) :
    (cacheStore c k v ca).table.map CacheEntry.key =
      (ca.table.map CacheEntry.key).filter (fun x => x != w) ++ [.addr k] := by
  have hfresh : findEntry (.addr k) (evictKey w ca).table = none := by
    rw [findEntry_none_iff, evictKey_keys]
    exact fun hin => h (List.mem_of_mem_filter hin)
  rw [cacheStore_keys, makeRoom_of_some hw, putEntry_keys_absent _ hfresh, evictKey_keys]

/-- A store of a present key leaves the keys in their order (20_memory.md R91). -/
theorem cacheStore_keys_present {c : Config} {k : Line} {ca : Cache} (v : Int)
    (h : CacheKey.addr k ∈ ca.table.map CacheEntry.key) :
    (cacheStore c k v ca).table.map CacheEntry.key = ca.table.map CacheEntry.key := by
  have hfound : (findEntry (.addr k) ca.table).isSome = true :=
    Option.isSome_iff_ne_none.2 fun hn => findEntry_none_iff.1 hn h
  rw [cacheStore_keys, makeRoom_of_none (storeVictim_present h), putEntry_keys_present _ hfound]

/-- Making room for a key does not touch the key's own entry. -/
theorem findEntry_makeRoom_same (c : Config) (key : CacheKey) (ca : Cache) :
    findEntry key (makeRoom c key ca).table = findEntry key ca.table := by
  cases h : findEntry key ca.table with
  | some e => rw [makeRoom_present h, h]
  | none => rw [findEntry_makeRoom, h, ite_self]

/-- The entry a put leaves: the value, the counter it had or 0 for a new one, and the dirty flag it had or none. -/
theorem findEntry_putEntry_eq (key : CacheKey) (v : Int) (t : List CacheEntry) :
    findEntry key (putEntry key v t) = some (((findEntry key t).map (setValue v)).getD
      { key := key, value := some v, freq := 0, dirty := false }) := by
  unfold putEntry
  cases h : findEntry key t with
  | some e => simp [findEntry_updateEntry_same (f := setValue v) (fun _ => rfl), h]
  | none => simpa using findEntry_append_fresh h rfl

/-- The entry a store leaves under its key, from the entry it found there. -/
theorem findEntry_cacheStore_same (c : Config) (k : Line) (v : Int) (ca : Cache) :
    findEntry (.addr k) (cacheStore c k v ca).table =
      some (markDirty c (bumpFreq c (((findEntry (.addr k) ca.table).map (setValue (normValue c v))).getD
        { key := .addr k, value := some (normValue c v), freq := 0, dirty := false }))) := by
  simp only [cacheStore, findEntry_updateEntry_same (keepsKey_store c), findEntry_putEntry_eq,
    findEntry_makeRoom_same, Option.map_some]

/-- The stored entry's value, its counter under LFU and its dirty flag under each write policy (20_memory.md R91,
R96). -/
theorem cacheStore_entry {c : Config} {ca : Cache} (k : Line) (v : Int) (hinv : Cache.Inv c ca) :
    ∃ e, findEntry (.addr k) (cacheStore c k v ca).table = some e ∧ e.value = some (normValue c v) ∧
      (c.evict = .lfu → e.freq = ((findEntry (.addr k) ca.table).map CacheEntry.freq).getD 0 + 1) ∧
      (c.wpol = .writeBack → e.dirty = true) ∧ (c.wpol = .writeThrough → e.dirty = false) := by
  refine ⟨_, findEntry_cacheStore_same c k v ca, ?_, fun hlfu => ?_, fun hwb => markDirty_dirty_writeBack hwb _,
    fun hwt => ?_⟩
  · cases findEntry (.addr k) ca.table <;> simp
  · rw [markDirty_freq, bumpFreq_freq_lfu hlfu]
    cases findEntry (.addr k) ca.table <;> rfl
  · rw [markDirty_writeThrough hwt, bumpFreq_dirty]
    cases hf : findEntry (.addr k) ca.table with
    | none => rfl
    | some e =>
      obtain ⟨hmem, hkey⟩ := findEntry_some hf
      obtain ⟨-, -, -, -, -, -, hclean⟩ := (fits_addr hkey).1 (hinv.entries e hmem)
      exact hclean hwt

/-- Settles O20, clause by clause: the stored entry, the other keys, the length, and the keys' order. -/
theorem storeInsertsOrOverwrites : Obligations.StoreInsertsOrOverwrites := by
  intro c k v ca hcap hinv
  refine ⟨cacheStore_entry k v hinv, fun k' hne => findEntry_cacheStore_ne c v ca hne,
    (cacheStore_inv k v hcap hinv).full,
    fun hin => ⟨storeVictim_present hin, cacheStore_keys_present v hin⟩, fun habsent => ?_⟩
  obtain ⟨w, hvictim, hstore, -⟩ := storeVictim_absent hcap hinv habsent
  exact ⟨w, hvictim, hstore, cacheStore_keys_absent v habsent hstore⟩

/-! ### The recency order -/

theorem cacheStore_recency_lru {c : Config} (h : c.evict = .lru) (k : Line) (v : Int) (ca : Cache) :
    (cacheStore c k v ca).recency =
      (makeRoom c (.addr k) ca).recency.filter (fun x => x != .addr k) ++ [.addr k] :=
  touchRecency_lru h (.addr k) _

theorem recency_perm_lru {c : Config} {ca : Cache} (h : c.evict = .lru) (hinv : Cache.Inv c ca) :
    ca.recency.Perm (ca.table.map CacheEntry.key) := by
  have horder := hinv.order
  simpa only [Cache.recencyFits, h] using horder

/-- Evicting the first key of a recency order without repeats leaves the rest of it. -/
theorem evictKey_recency_head {w : CacheKey} {rest : List CacheKey} {ca : Cache} (h : ca.recency = w :: rest)
    (hd : ca.recency.Nodup) : (evictKey w ca).recency = rest := by
  rw [h] at hd
  simpa [evictKey, h] using filter_ne_of_not_mem (List.nodup_cons.1 hd).1

/-- Settles O22: under LRU the victim is the head of the recency order, which has no repeats. -/
theorem lruStoreEvictsTheLeastRecent : Obligations.LruStoreEvictsTheLeastRecent := by
  intro c k v ca hlru hcap hinv
  have hperm := recency_perm_lru hlru hinv
  constructor
  · intro habsent
    obtain ⟨w, hvictim, hstore, hw⟩ := storeVictim_absent hcap hinv habsent
    have hhead : ca.recency.head? = some w := by simpa only [victim, hlru] using hvictim
    obtain ⟨rest, hrest⟩ := List.head?_eq_some_iff.1 hhead
    have hfresh : CacheKey.addr k ∉ rest := fun hin => habsent (hperm.subset (by simp [hrest, hin]))
    refine ⟨w, rest, hrest, hstore, ?_, ?_⟩
    · rw [cacheStore_recency_lru hlru, makeRoom_of_some hstore,
        evictKey_recency_head hrest (hperm.nodup_iff.2 hinv.distinct), filter_ne_of_not_mem hfresh]
    · have hne : w ≠ .addr k := fun he => habsent (he ▸ hw)
      rw [cacheStore_keys_absent v habsent hstore]
      simp [hne]
  · intro hin
    rw [cacheStore_recency_lru hlru, makeRoom_of_none (storeVictim_present hin)]

end Sys2Proof.Machine

/-! The encoding of lines (30_encoding.md R131 to R147): what trimming, the opcode token and the operand tokens read as,
and that decoding a canonical spelling gives its instruction back. -/

namespace Sys2Proof

/-! ### Characters and digit strings -/

/-- The whitespace set, by code (30_encoding.md R131). -/
theorem isSpace_iff {c : Char} : isSpace c = true ↔ c.toNat ∈ [0x20, 0x09, 0x0A, 0x0B, 0x0C, 0x0D] := by
  simp only [isSpace, Bool.or_eq_true, beq_iff_eq, Bool.and_eq_true, decide_eq_true_eq, List.mem_cons,
    List.not_mem_nil, or_false]
  omega

theorem isDigit_iff {c : Char} : isDigit c = true ↔ '0' ≤ c ∧ c ≤ '9' := by
  simp only [isDigit, Bool.and_eq_true, decide_eq_true_eq]
  exact Iff.rfl

theorem isDigits_iff {ds : Line} : isDigits ds = true ↔ ds ≠ [] ∧ ∀ c ∈ ds, '0' ≤ c ∧ c ≤ '9' := by
  simp [isDigits, isDigit_iff]

theorem digitsValue_append (ds : Line) (c : Char) :
    digitsValue (ds ++ [c]) = 10 * digitsValue ds + (c.toNat - 48) := by
  simp [digitsValue]

/-! ### Register tokens (30_encoding.md R136) -/

theorem parseReg_cons {nreg : Nat} {r : Char} {ds : Line} (hr : r = 'R' ∨ r = 'r') (hds : isDigits ds = true) :
    parseReg nreg (r :: ds) =
      if digitsValue ds < nreg then .ok (digitsValue ds) else .error .registerOutOfRange :=
  if_pos ⟨hr, hds⟩

/-- Settles O8, by the token's first character and the digits after it. -/
theorem registerTokensReadAsTheRuleSays : Obligations.RegisterTokensReadAsTheRuleSays := by
  intro nreg t
  constructor
  · rintro r ds rfl hr hne hdigits
    exact parseReg_cons hr (isDigits_iff.2 ⟨hne, hdigits⟩)
  · intro hmalformed
    cases t with
    | nil => rfl
    | cons r ds =>
      refine if_neg fun ⟨hr, hds⟩ => hmalformed ?_
      obtain ⟨hne, hdigits⟩ := isDigits_iff.1 hds
      exact ⟨r, ds, rfl, hr, hne, hdigits⟩

/-! ### Integer tokens (30_encoding.md R137) -/

theorem parseDigits_of_isDigits {ds : Line} (h : isDigits ds = true) (negative : Bool) :
    parseDigits negative ds = .ok (if negative then -(digitsValue ds : Int) else (digitsValue ds : Int)) :=
  if_pos h

theorem parseDigits_of_not_isDigits {ds : Line} (h : ¬ isDigits ds = true) (negative : Bool) :
    parseDigits negative ds = .error .badInteger :=
  if_neg h

@[simp] theorem parseInt_minus (ds : Line) : parseInt ('-' :: ds) = parseDigits true ds := rfl

@[simp] theorem parseInt_plus (ds : Line) : parseInt ('+' :: ds) = parseDigits false ds := rfl

theorem parseInt_of_noSign {c : Char} {ds : Line} (hminus : c ≠ '-') (hplus : c ≠ '+') :
    parseInt (c :: ds) = parseDigits false (c :: ds) := by
  simp [parseInt, hminus, hplus]

/-- No sign is a digit, so a digit string is read as it stands. -/
theorem parseInt_of_isDigits : ∀ {ds : Line}, isDigits ds = true → parseInt ds = .ok (digitsValue ds : Int)
  | c :: ds, h => by
    have hc : isDigit c = true := List.all_eq_true.1 h c List.mem_cons_self
    have hminus : c ≠ '-' := by rintro rfl; exact absurd hc (by decide)
    have hplus : c ≠ '+' := by rintro rfl; exact absurd hc (by decide)
    exact (parseInt_of_noSign hminus hplus).trans (parseDigits_of_isDigits h false)

/-- A token that is no digit string, with or without a sign, is malformed. -/
theorem parseInt_malformed {t : Line}
    (h : ∀ ds : Line, t = ds ∨ t = '+' :: ds ∨ t = '-' :: ds → ¬ isDigits ds = true) :
    parseInt t = .error .badInteger := by
  cases t with
  | nil => rfl
  | cons c ds =>
    by_cases hminus : c = '-'
    · subst hminus
      exact parseDigits_of_not_isDigits (h ds (.inr (.inr rfl))) true
    · by_cases hplus : c = '+'
      · subst hplus
        exact parseDigits_of_not_isDigits (h ds (.inr (.inl rfl))) false
      · rw [parseInt_of_noSign hminus hplus]
        exact parseDigits_of_not_isDigits (h _ (.inl rfl)) false

/-- Settles O9: the positional value by one more digit at the end, the three shapes by their sign. -/
theorem integerTokensReadAsTheRuleSays : Obligations.IntegerTokensReadAsTheRuleSays := by
  refine ⟨rfl, fun ds d hd => ?_, fun ds => rfl, fun t => ⟨fun ds hne hdigits => ?_, fun hmalformed => ?_⟩⟩
  · have hvalue : (Char.ofNat (48 + d)).toNat - 48 = d := (digitChar_spec d hd).2
    rw [digitsValue_append, hvalue]
  · have hds : isDigits ds = true := isDigits_iff.2 ⟨hne, hdigits⟩
    refine ⟨?_, ?_, ?_⟩ <;> rintro rfl
    · exact parseInt_of_isDigits hds
    · exact parseDigits_of_isDigits hds false
    · exact parseDigits_of_isDigits hds true
  · refine parseInt_malformed fun ds hshape hds => hmalformed ?_
    obtain ⟨hne, hdigits⟩ := isDigits_iff.1 hds
    exact ⟨ds, hne, hdigits, hshape⟩

/-! ### The opcode token (30_encoding.md R133) -/

theorem opcodeOf_eq_some_iff {t : Line} {op : Opcode} : opcodeOf t = some op ↔ t.map asciiUpper = op.spelling := by
  constructor
  · intro h
    have hmatch := List.find?_some (p := fun op : Opcode => op.spelling == t.map asciiUpper) h
    exact (beq_iff_eq.1 hmatch).symm
  · intro h
    rw [opcodeOf, h]
    cases op <;> rfl

/-- A mnemonic's own spelling selects it. -/
theorem opcodeOf_spelling (op : Opcode) : opcodeOf op.spelling = some op := by
  cases op <;> rfl

/-- A line with something left after trimming decodes by its opcode token. -/
theorem decode_of_opcode {nreg : Nat} {l t0 : Line} {ops : List Line} {op : Opcode} (hl : trim l ≠ [])
    (ht : tokens l = t0 :: ops) (hop : opcodeOf t0 = some op) : decode nreg l = decodeOperands nreg op ops := by
  simp only [decode, if_neg hl, ht, decodeTokens, hop]

theorem decode_of_unknown_opcode {nreg : Nat} {l t0 : Line} {ops : List Line} (hl : trim l ≠ [])
    (ht : tokens l = t0 :: ops) (hop : opcodeOf t0 = none) : decode nreg l = .error .unknownOpcode := by
  simp only [decode, if_neg hl, ht, decodeTokens, hop]

/-- Settles O5: the table's search finds exactly the row whose spelling is the token's upper case. -/
theorem opcodeTokenIsMatchedWithoutCase : Obligations.OpcodeTokenIsMatchedWithoutCase := by
  intro nreg t up
  have hup : up = t.map asciiUpper := List.map_congr_left fun c _ => by
    simp only [asciiUpper, Bool.and_eq_true, decide_eq_true_eq]
  refine ⟨fun op => hup ▸ opcodeOf_eq_some_iff, fun hnone l ops hl ht => decode_of_unknown_opcode hl ht ?_⟩
  exact Option.eq_none_iff_forall_ne_some.2 fun op hop => hnone op (hup ▸ opcodeOf_eq_some_iff.1 hop)

/-! ### The operand formats (30_encoding.md R134, R135, R139, R140) -/

section Formats

variable {nreg x y z : Nat} {a b c : Line} {v : Int}

theorem decodeThreeRegs_of_parse (mk : Nat → Nat → Nat → Instr) (hx : parseReg nreg a = .ok x)
    (hy : parseReg nreg b = .ok y) (hz : parseReg nreg c = .ok z) :
    decodeThreeRegs nreg mk [a, b, c] = .ok (mk x y z) := by
  simp only [decodeThreeRegs, hx, hy, hz]
  rfl

theorem decodeTwoRegsInt_of_parse (mk : Nat → Nat → Int → Instr) (hx : parseReg nreg a = .ok x)
    (hy : parseReg nreg b = .ok y) (hv : parseInt c = .ok v) :
    decodeTwoRegsInt nreg mk [a, b, c] = .ok (mk x y v) := by
  simp only [decodeTwoRegsInt, hx, hy, hv]
  rfl

theorem decodeOneInt_of_parse (mk : Int → Except SkipReason Instr) (hv : parseInt a = .ok v) :
    decodeOneInt mk [a] = mk v := by
  simp only [decodeOneInt, hv]
  rfl

end Formats

theorem decodeThreeRegs_of_length {ops : List Line} (h : ops.length ≠ 3) (nreg : Nat) (mk : Nat → Nat → Nat → Instr) :
    decodeThreeRegs nreg mk ops = .error .operandCount := by
  unfold decodeThreeRegs
  split
  · exact absurd rfl h
  · rfl

theorem decodeTwoRegsInt_of_length {ops : List Line} (h : ops.length ≠ 3) (nreg : Nat)
    (mk : Nat → Nat → Int → Instr) : decodeTwoRegsInt nreg mk ops = .error .operandCount := by
  unfold decodeTwoRegsInt
  split
  · exact absurd rfl h
  · rfl

theorem decodeOneInt_of_length {ops : List Line} (h : ops.length ≠ 1) (mk : Int → Except SkipReason Instr) :
    decodeOneInt mk ops = .error .operandCount := by
  unfold decodeOneInt
  split
  · exact absurd rfl h
  · rfl

theorem decodeNoOperand_of_length {ops : List Line} (h : ops.length ≠ 0) (i : Instr) :
    decodeNoOperand i ops = .error .operandCount := by
  cases ops with
  | nil => exact absurd rfl h
  | cons t ts => rfl

/-- Each format asks for its operand count before it reads a token (30_encoding.md R134, R141). -/
theorem decodeOperands_of_length {op : Opcode} {ops : List Line} (h : ops.length ≠ op.operandCount) (nreg : Nat) :
    decodeOperands nreg op ops = .error .operandCount := by
  cases op with
  | add | sub | slt => exact decodeThreeRegs_of_length h nreg _
  | addi | bne | lw | sw => exact decodeTwoRegsInt_of_length h nreg _
  | j | jal | cache => exact decodeOneInt_of_length h _
  | halt => exact decodeNoOperand_of_length h _

/-- Settles O6, by the format of each opcode. -/
theorem wrongOperandCountIsSkipped : Obligations.WrongOperandCountIsSkipped := by
  refine ⟨⟨rfl, rfl, rfl⟩, fun nreg l t0 ops op hl ht hop hcount => ?_⟩
  rw [decode_of_opcode hl ht hop, decodeOperands_of_length hcount]

/-- Settles O7: a line decodes by its opcode, and the opcode's format places what its tokens parse to. -/
theorem formatsPlaceTheirOperands : Obligations.FormatsPlaceTheirOperands := by
  intro nreg l t0 a b c hl
  refine ⟨fun x y z ht hx hy hz => ?_, fun x y v ht hx hy hv => ?_, fun v ht hv => ?_, fun ht hop => ?_⟩
  · have hthree mk := decodeThreeRegs_of_parse mk hx hy hz
    exact ⟨fun hop => (decode_of_opcode hl ht hop).trans (hthree .add),
      fun hop => (decode_of_opcode hl ht hop).trans (hthree .sub),
      fun hop => (decode_of_opcode hl ht hop).trans (hthree .slt)⟩
  · have htwo mk := decodeTwoRegsInt_of_parse mk hx hy hv
    exact ⟨fun hop => (decode_of_opcode hl ht hop).trans (htwo .addi),
      fun hop => (decode_of_opcode hl ht hop).trans (htwo .bne),
      fun hop => (decode_of_opcode hl ht hop).trans (htwo .lw),
      fun hop => (decode_of_opcode hl ht hop).trans (htwo .sw)⟩
  · have hone mk := decodeOneInt_of_parse mk hv
    refine ⟨fun hop => (decode_of_opcode hl ht hop).trans (hone _),
      fun hop h8 => (decode_of_opcode hl ht hop).trans ((hone _).trans (if_pos h8)), ?_, ?_, ?_⟩ <;>
    · rintro hop rfl
      exact (decode_of_opcode hl ht hop).trans (hone _)
  · exact decode_of_opcode hl ht hop

theorem cacheModeOf_reserved {v : Int} (h0 : v ≠ 0) (h1 : v ≠ 1) (h2 : v ≠ 2) :
    cacheModeOf v = .error .reservedCacheMode := by
  simp [cacheModeOf, h0, h1, h2]

/-- Settles O10: what CACHE and JAL make of the integer they read. -/
theorem cacheModeAndLinkRegisterAreChecked : Obligations.CacheModeAndLinkRegisterAreChecked := by
  intro nreg l t0 a v hl ht hv
  constructor
  · intro hop h0 h1 h2
    rw [decode_of_opcode hl ht hop, decodeOperands, decodeOneInt_of_parse _ hv, cacheModeOf_reserved h0 h1 h2]
    rfl
  · intro hop
    exact (decode_of_opcode hl ht hop).trans (decodeOneInt_of_parse _ hv)

/-! ### The printer of canonical spellings (30_encoding.md R145) -/

theorem parseReg_regToken {nreg k : Nat} (h : k < nreg) : parseReg nreg (regToken k) = .ok k := by
  rw [regToken, parseReg_cons (.inl rfl) (isDigits_natDigits k), digitsValue_natDigits, if_pos h]

theorem parseInt_intToken : ∀ v : Int, parseInt (intToken v) = .ok v
  | .ofNat n => by
    rw [intToken, parseInt_of_isDigits (isDigits_natDigits n), digitsValue_natDigits]
    rfl
  | .negSucc n => by
    rw [intToken, parseInt_minus, parseDigits_of_isDigits (isDigits_natDigits (n + 1)), digitsValue_natDigits]
    rfl

/-- The canonical spelling of every instruction splits into its own tokens. -/
theorem tokens_encode (i : Instr) : tokens (encode i) = i.opcode.spelling :: i.operandTokens := by
  cases i with
  | add d s t => exact Laws.Tokens.add d s t
  | addi d s imm => exact Laws.Tokens.addi d s imm
  | sub d s t => exact Laws.Tokens.sub d s t
  | slt d s t => exact Laws.Tokens.slt d s t
  | bne s t offset => exact Laws.Tokens.bne s t offset
  | j target => exact Laws.Tokens.j target
  | jal target => exact Laws.Tokens.jal target
  | lw s t offset => exact Laws.Tokens.lw s t offset
  | sw s t offset => exact Laws.Tokens.sw s t offset
  | cache mode => exact Laws.Tokens.cache mode
  | halt => exact Laws.Tokens.halt

/-- A line that trims to nothing has the empty token alone, and no mnemonic is empty. -/
theorem trim_encode_ne_nil (i : Instr) : trim (encode i) ≠ [] := by
  intro hempty
  have htokens : tokens (encode i) = [[]] := by rw [tokens, hempty]; rfl
  rw [tokens_encode] at htokens
  cases i <;> cases htokens

/-- An instruction's operand tokens parse back to its operands where its registers exist. -/
theorem decodeOperands_operandTokens {nreg : Nat} {i : Instr} (h : i.wf nreg = true) :
    decodeOperands nreg i.opcode i.operandTokens = .ok i := by
  cases i with
  | add d s t | sub d s t | slt d s t =>
    simp only [Instr.wf, Bool.and_eq_true, decide_eq_true_eq] at h
    obtain ⟨⟨hd, hs⟩, ht⟩ := h
    exact decodeThreeRegs_of_parse _ (parseReg_regToken hd) (parseReg_regToken hs) (parseReg_regToken ht)
  | addi x y v | bne x y v | lw x y v | sw x y v =>
    simp only [Instr.wf, Bool.and_eq_true, decide_eq_true_eq] at h
    obtain ⟨hx, hy⟩ := h
    exact decodeTwoRegsInt_of_parse _ (parseReg_regToken hx) (parseReg_regToken hy) (parseInt_intToken v)
  | j target => exact decodeOneInt_of_parse _ (parseInt_intToken target)
  | jal target =>
    exact (decodeOneInt_of_parse _ (parseInt_intToken target)).trans (if_pos (of_decide_eq_true h))
  | cache mode => cases mode <;> rfl
  | halt => rfl

/-- Settles O2: the spelling splits into the instruction's tokens, and each token parses back to its operand. -/
theorem decodeOfEncodeIsTheInstruction : Obligations.DecodeOfEncodeIsTheInstruction := by
  intro nreg i hwf
  rw [decode_of_opcode (trim_encode_ne_nil i) (tokens_encode i) (opcodeOf_spelling i.opcode),
    decodeOperands_operandTokens hwf]

/-- Settles O3, by what each format reads: its registers parse below NREG, and JAL asks for register 7. -/
theorem decodedInstructionIsWellFormed : Obligations.DecodedInstructionIsWellFormed :=
  fun _ _ _ h => Machine.decode_wf h

/-! ### Trimming and empty lines (30_encoding.md R131) -/

theorem trim_eq_nil_iff {l : Line} : trim l = [] ↔ ∀ c ∈ l, isSpace c = true := by
  change (l.dropWhile isSpace).rdropWhile isSpace = [] ↔ _
  rw [List.rdropWhile_eq_nil_iff, ← List.dropWhile_eq_nil_iff, List.dropWhile_idempotent, List.dropWhile_eq_nil_iff]

theorem trim_append_left {before : Line} (h : ∀ c ∈ before, isSpace c = true) (l : Line) :
    trim (before ++ l) = trim l := by
  rw [trim, List.dropWhile_append_of_pos h, trim]

/-- Either the line is whitespace too, and nothing is left of both, or what is left of it precedes `after`. -/
theorem trim_append_right {after : Line} (h : ∀ c ∈ after, isSpace c = true) (l : Line) :
    trim (l ++ after) = trim l := by
  by_cases hl : ∀ c ∈ l, isSpace c = true
  · rw [trim_append_left hl, trim_eq_nil_iff.2 h, trim_eq_nil_iff.2 hl]
  · have hrest : ¬ (l.dropWhile isSpace).isEmpty = true := by
      rwa [List.isEmpty_iff, List.dropWhile_eq_nil_iff]
    rw [trim, List.dropWhile_append, if_neg hrest, List.reverse_append,
      List.dropWhile_append_of_pos (by simpa using h), trim]

theorem decode_of_trim_eq {l l' : Line} (h : trim l = trim l') (nreg : Nat) : decode nreg l = decode nreg l' := by
  rw [decode, tokens, h, decode, tokens]

/-- A computation whose parts never give an error never gives it. -/
theorem bind_ne_error {ε α β : Type} {x : Except ε α} {f : α → Except ε β} {e : ε} (hx : x ≠ .error e)
    (hf : ∀ a, f a ≠ .error e) : x >>= f ≠ .error e := by
  cases x with
  | error e' => exact fun h => hx (by cases h; rfl)
  | ok a => exact hf a

theorem parseReg_ne_emptyLine (nreg : Nat) (t : Line) : parseReg nreg t ≠ .error .emptyLine := by
  cases t with
  | nil => simp [parseReg]
  | cons c ds =>
    simp only [parseReg]
    split_ifs <;> simp

theorem parseDigits_ne_emptyLine (negative : Bool) (ds : Line) : parseDigits negative ds ≠ .error .emptyLine := by
  unfold parseDigits
  split <;> simp

theorem parseInt_ne_emptyLine (t : Line) : parseInt t ≠ .error .emptyLine := by
  cases t with
  | nil => simp [parseInt]
  | cons c ds =>
    simp only [parseInt]
    split_ifs <;> exact parseDigits_ne_emptyLine _ _

theorem decodeThreeRegs_ne_emptyLine (nreg : Nat) (mk : Nat → Nat → Nat → Instr) (ops : List Line) :
    decodeThreeRegs nreg mk ops ≠ .error .emptyLine := by
  unfold decodeThreeRegs
  split
  · exact bind_ne_error (parseReg_ne_emptyLine _ _) fun _ => bind_ne_error (parseReg_ne_emptyLine _ _) fun _ =>
      bind_ne_error (parseReg_ne_emptyLine _ _) fun _ => by simp
  · simp

theorem decodeTwoRegsInt_ne_emptyLine (nreg : Nat) (mk : Nat → Nat → Int → Instr) (ops : List Line) :
    decodeTwoRegsInt nreg mk ops ≠ .error .emptyLine := by
  unfold decodeTwoRegsInt
  split
  · exact bind_ne_error (parseReg_ne_emptyLine _ _) fun _ => bind_ne_error (parseReg_ne_emptyLine _ _) fun _ =>
      bind_ne_error (parseInt_ne_emptyLine _) fun _ => by simp
  · simp

theorem decodeOneInt_ne_emptyLine {mk : Int → Except SkipReason Instr} (hmk : ∀ v, mk v ≠ .error .emptyLine)
    (ops : List Line) : decodeOneInt mk ops ≠ .error .emptyLine := by
  unfold decodeOneInt
  split
  · exact bind_ne_error (parseInt_ne_emptyLine _) hmk
  · simp

theorem cacheModeOf_map_ne_emptyLine (v : Int) : (cacheModeOf v).map Instr.cache ≠ .error .emptyLine := by
  unfold cacheModeOf
  split_ifs <;> simp [Except.map]

theorem decodeOperands_ne_emptyLine (nreg : Nat) (op : Opcode) (ops : List Line) :
    decodeOperands nreg op ops ≠ .error .emptyLine := by
  cases op with
  | add | sub | slt => exact decodeThreeRegs_ne_emptyLine nreg _ ops
  | addi | bne | lw | sw => exact decodeTwoRegsInt_ne_emptyLine nreg _ ops
  | j => exact decodeOneInt_ne_emptyLine (fun v => by simp) ops
  | jal => exact decodeOneInt_ne_emptyLine (fun v => by split <;> simp) ops
  | cache => exact decodeOneInt_ne_emptyLine cacheModeOf_map_ne_emptyLine ops
  | halt => cases ops <;> simp [decodeOperands, decodeNoOperand]

theorem decodeTokens_ne_emptyLine (nreg : Nat) (ts : List Line) : decodeTokens nreg ts ≠ .error .emptyLine := by
  cases ts with
  | nil => simp [decodeTokens]
  | cons t0 ops =>
    simp only [decodeTokens]
    split
    · simp
    · exact decodeOperands_ne_emptyLine _ _ _

/-- Only a line that trims to nothing is skipped as empty. -/
theorem decode_eq_emptyLine_iff {nreg : Nat} {l : Line} : decode nreg l = .error .emptyLine ↔ trim l = [] := by
  constructor
  · intro h
    by_contra hl
    rw [decode, if_neg hl] at h
    exact decodeTokens_ne_emptyLine nreg (tokens l) h
  · exact fun h => if_pos h

/-- Settles O4: decoding reads the trimmed line alone, and no check after the first gives EmptyLine. -/
theorem whitespaceAroundALineIsTrimmed : Obligations.WhitespaceAroundALineIsTrimmed := by
  constructor
  · intro nreg before after l h
    have hspace : ∀ c ∈ before ++ after, isSpace c = true := fun c hc => isSpace_iff.2 (h c hc)
    obtain ⟨hbefore, hafter⟩ := List.forall_mem_append.1 hspace
    exact decode_of_trim_eq ((trim_append_right hafter _).trans (trim_append_left hbefore l)) nreg
  · intro nreg l
    simp only [decode_eq_emptyLine_iff, trim_eq_nil_iff, isSpace_iff]

/-- Settles O1, by running the decoder on each line of the table. -/
theorem decodeExamplesReadAsTheTableSays : Obligations.DecodeExamplesReadAsTheTableSays := by
  unfold Obligations.DecodeExamplesReadAsTheTableSays
  decide

end Sys2Proof

/-! ADD, ADDI, SUB, SLT (40_arith.md): the normalisation of values (R174) and the shape the four share, a register
written before the base advance. -/

namespace Sys2Proof.Machine

/-! ### The normal form of a value -/

theorem cast_two_pow_succ (w : Nat) : ((2 ^ (w + 1) : Nat) : Int) = 2 * ((2 ^ w : Nat) : Int) := by
  rw [Nat.pow_succ', Nat.cast_mul, Nat.cast_two]

/-- The wrap to `w + 1` bits, with the modulus written as twice the bound of the signed range. -/
theorem normValue_finite {c : Config} {w : Nat} (h : c.xlen = .finite (w + 1)) (v : Int) :
    normValue c v = (v + ((2 ^ w : Nat) : Int)) % (2 * ((2 ^ w : Nat) : Int)) - ((2 ^ w : Nat) : Int) := by
  simp only [normValue, h, Nat.add_sub_cancel, cast_two_pow_succ]

/-- A value of the signed range is its own normal form. -/
theorem normValue_of_in_range {c : Config} {w : Nat} {v : Int} (h : c.xlen = .finite (w + 1))
    (hlow : -((2 ^ w : Nat) : Int) ≤ v) (hhigh : v < ((2 ^ w : Nat) : Int)) : normValue c v = v := by
  rw [normValue_finite h, Int.emod_eq_of_lt (by omega) (by omega), Int.add_sub_cancel]

/-- Settles O11: the finite wrap is a remainder by the modulus, less half of it; the multiple is the quotient. -/
theorem normalisationIsTheSignedWrap : Obligations.NormalisationIsTheSignedWrap := by
  intro c v
  refine ⟨normValue_inf v, fun w h => ?_⟩
  have hpos : (0 : Int) < ((2 ^ w : Nat) : Int) := Int.natCast_pos.2 (Nat.two_pow_pos w)
  rw [normValue_finite h, cast_two_pow_succ]
  generalize ((2 ^ w : Nat) : Int) = p at hpos
  have hnonneg := Int.emod_nonneg (v + p) (show 2 * p ≠ 0 by omega)
  have hlt := Int.emod_lt_of_pos (v + p) (show 0 < 2 * p by omega)
  refine ⟨by omega, by omega, (v + p) / (2 * p), ?_⟩
  have hdiv := Int.emod_add_mul_ediv (v + p) (2 * p)
  linarith

theorem legalXlen_of_legal {c : Config} (h : legal c = true) : legalXlen c.xlen = true :=
  (Bool.and_eq_true_iff.1 h).2

/-- 0 and 1 lie in every signed range a legal XLEN gives; its width is at least 2 (00_scope.md R9). -/
theorem normValue_bit {c : Config} {v : Int} (hc : legal c = true) (h0 : 0 ≤ v) (h1 : v ≤ 1) :
    normValue c v = v := by
  cases hx : c.xlen with
  | inf => exact normValue_inf v hx
  | finite w =>
    have hw : 2 ≤ w := by simpa [hx, legalXlen] using legalXlen_of_legal hc
    obtain ⟨w, rfl⟩ := Nat.exists_eq_add_of_le' hw
    have hpow : 1 < 2 ^ (w + 1) := Nat.one_lt_two_pow (Nat.succ_ne_zero w)
    exact normValue_of_in_range hx (by omega) (by omega)

/-! ### A register written, then Continue -/

/-- An instruction that writes one register and continues touches nothing else but the pc and the instruction
counter. -/
theorem onlyRegs_complete_writeReg (n d : Nat) (v : Int) (s : State) : onlyRegs [d] s (complete n (writeReg d v s)) :=
  ⟨⟨writeReg_regs_length d v s, fun _ hk => readReg_writeReg_ne v s (List.ne_of_not_mem_cons hk)⟩, fun _ => rfl,
    ⟨rfl, rfl, rfl⟩, ⟨rfl, rfl, rfl, rfl⟩, rfl⟩

/-- What the four leave when they write `v` to the register `d`: the register, the pc and the frame. -/
theorem advance_writeReg_effect {d : Nat} {s : State} (v : Int) (hlen : s.regs.length = s.cfg.nreg)
    (hd : d < s.cfg.nreg) :
    readReg d (advance (writeReg d v s)) = normValue s.cfg v ∧
      (advance (writeReg d v s)).pc = s.pc + s.cfg.pcStep ∧ onlyRegs [d] s (advance (writeReg d v s)) :=
  ⟨readReg_writeReg_same v (hlen ▸ hd), rfl, onlyRegs_complete_writeReg _ d v s⟩

/-! ### The four instructions -/

/-- Settles O23, by what ADD answers and what a register written before the base advance leaves. -/
theorem addWritesTheSum : Obligations.AddWritesTheSum :=
  fun _ _ _ _ hlen hd ha hb => ⟨_, exec_add hd ha hb, advance_writeReg_effect _ hlen hd⟩

/-- Settles O24, as O23 with the immediate for the second register. -/
theorem addiWritesTheSumWithItsImmediate : Obligations.AddiWritesTheSumWithItsImmediate :=
  fun _ _ _ _ hlen hd ha => ⟨_, exec_addi hd ha, advance_writeReg_effect _ hlen hd⟩

/-- Settles O25, as O23 with the difference for the sum. -/
theorem subWritesTheDifference : Obligations.SubWritesTheDifference :=
  fun _ _ _ _ hlen hd ha hb => ⟨_, exec_sub hd ha hb, advance_writeReg_effect _ hlen hd⟩

/-- Settles O26: the result written is the comparison's 1 or 0, each its own normal form. -/
theorem sltWritesOneOrZero : Obligations.SltWritesOneOrZero := by
  intro s d a b hc hlen hd ha hb
  obtain ⟨hreg, hpc, hframe⟩ := advance_writeReg_effect (setLess (readReg a s) (readReg b s)) hlen hd
  refine ⟨_, exec_slt hd ha hb, fun hlt => ?_, fun hge => ?_, hpc, hframe⟩
  · rw [hreg, setLess, if_pos hlt, normValue_bit hc (by decide) (by decide)]
  · rw [hreg, setLess, if_neg (Int.not_lt.2 hge), normValue_bit hc (by decide) (by decide)]

end Sys2Proof.Machine

/-! BNE, J, JAL (41_control.md): a transfer to an index that is not negative leaves the state written with the pc there,
a transfer below zero leaves the run status alone changed. -/

namespace Sys2Proof.Machine

/-! ### The pc set, then Continue -/

/-- An instruction that writes no register and continues touches nothing but the pc and the instruction counter. -/
theorem onlyRegs_complete (n : Nat) (s : State) : onlyRegs [] s (complete n s) :=
  ⟨⟨rfl, fun _ _ => rfl⟩, fun _ => rfl, ⟨rfl, rfl, rfl⟩, ⟨rfl, rfl, rfl, rfl⟩, rfl⟩

theorem complete_toNat_pc {next : Int} (s : State) (h : 0 ≤ next) : ((complete next.toNat s).pc : Int) = next :=
  Int.toNat_of_nonneg h

/-! ### The three instructions -/

/-- Settles O27: the registers compared, then the sign of the taken branch's target. -/
theorem bneBranchesWhenNotEqual : Obligations.BneBranchesWhenNotEqual := by
  intro s a b offset ha hb
  refine ⟨fun heq => ?_, fun hne hnonneg => ?_, fun hne hneg => ?_⟩
  · exact ⟨_, exec_bne_equal ha hb heq, rfl, onlyRegs_complete _ s⟩
  · rw [exec_bne_taken ha hb hne, branchTarget, transfer_nonneg s hnonneg]
    exact ⟨_, rfl, complete_toNat_pc s hnonneg, onlyRegs_complete _ s⟩
  · rw [exec_bne_taken ha hb hne, branchTarget, transfer_neg s hneg]
    rfl

/-- Settles O28: the sign of `4 * target` is that of `target`. -/
theorem jumpSetsThePc : Obligations.JumpSetsThePc := by
  intro s target
  refine ⟨fun hnonneg => ?_, fun hneg => ?_⟩
  · have hnext : 0 ≤ 4 * target := by omega
    rw [exec_j, transfer_nonneg s hnext]
    exact ⟨_, rfl, complete_toNat_pc s hnext, onlyRegs_complete _ s⟩
  · rw [exec_j, transfer_neg s (by omega)]
    rfl

/-- Settles O29: as O28 with the link written in the state the transfer completes; a negative target discards it. -/
theorem jalLinksAndJumps : Obligations.JalLinksAndJumps := by
  intro s target hlen hlink
  refine ⟨fun hnonneg => ?_, fun hneg => ?_⟩
  · have hnext : 0 ≤ 4 * target := by omega
    rw [exec_jal hlink, transfer_nonneg _ hnext]
    exact ⟨_, rfl, complete_toNat_pc _ hnext, readReg_writeReg_same _ (hlen ▸ hlink),
      onlyRegs_complete_writeReg _ 7 _ s⟩
  · rw [exec_jal hlink, transfer_neg _ (by omega)]
    rfl

end Sys2Proof.Machine

/-! LW and SW (42_loadstore.md): the value a load reads and what a store leaves, said once; then loads after loads and
stores (R192, R195), and the coherence of the Cache with the bus (70_reset_and_hazards.md R275). -/

namespace Sys2Proof.Machine

/-! ### Under the invariant every value is its own normal form -/

theorem cellRead_normal {s : State} (hs : s.Inv) (a : Nat) :
    normValue s.cfg (cellRead a s.mem) = cellRead a s.mem := by
  rcases cellRead_default_or_mem a s.mem with h | h
  · rw [h]; exact normValue_bit hs.legalCfg (by decide) (by decide)
  · exact hs.memInv.normal _ h

theorem cachedValue_normal {s : State} (hs : s.Inv) {k : Line} {v : Int} (h : cachedValue k s.cache = some v) :
    normValue s.cfg v = v := by
  obtain ⟨e, hfind, hv⟩ := Option.bind_eq_some_iff.1 h
  obtain ⟨hmem, hkey⟩ := findEntry_some hfind
  obtain ⟨w, hw, hnormal, -⟩ := (fits_addr hkey).1 (hs.cacheInv.entries e hmem)
  cases hv.symm.trans hw
  exact hnormal

theorem readReg_normal {s : State} (hs : s.Inv) {k : Nat} (hk : k < s.cfg.nreg) :
    normValue s.cfg (readReg k s) = readReg k s := by
  have hlt : k < s.regs.length := hs.regCount ▸ hk
  rw [readReg, List.getD_eq_getElem _ _ hlt]
  exact hs.regNormal _ (List.getElem_mem hlt)

/-! ### A load of a cell -/

/-- The value an LW of cell `a` reads: with CE true the Cache's where it holds one, else the cell's (42_loadstore.md
R190). -/
def loadedValue (a : Nat) (s : State) : Int :=
  if s.ce = true then (cachedValue (binBW s.cfg a) s.cache).getD (cellRead a s.mem) else cellRead a s.mem

theorem exec_lw_at {b t : Nat} {offset a : Int} {s : State} (hb : b < s.cfg.nreg) (ht : t < s.cfg.nreg)
    (haddr : readReg b s + offset = a) : exec (.lw b t offset) s = .next (loadInto t a s) := by
  rw [exec_lw hb ht, haddr]

theorem readReg_loadInto {t a : Nat} {s : State} (hc : legal s.cfg = true) (hlen : s.regs.length = s.cfg.nreg)
    (ht : t < s.cfg.nreg) (ha : a < s.cfg.memSize) :
    readReg t (loadInto t a s) = normValue s.cfg (loadedValue a s) := by
  have hreg : t < s.regs.length := hlen ▸ ht
  cases hce : s.ce with
  | false =>
    rw [loadInto_bus hc ha hce, loadedValue, hce]
    exact readReg_writeReg_same _ hreg
  | true =>
    cases hv : cachedValue (binBW s.cfg a) s.cache with
    | none =>
      rw [loadInto_miss hc ha hce hv, loadedValue, if_pos hce, hv]
      exact readReg_writeReg_same _ hreg
    | some v =>
      rw [loadInto_hit hc ha hce hv, loadedValue, if_pos hce, hv]
      exact readReg_writeReg_same _ hreg

/-- Settles O30: `loadInto` with CE false, on a hit, on a miss, and out of range under each `ON_FATAL`. -/
theorem lwLoadsThroughTheCacheOrTheBus : Obligations.LwLoadsThroughTheCacheOrTheBus := by
  intro s b t offset hc hlen hb ht
  have hreg : t < s.regs.length := hlen ▸ ht
  refine ⟨fun a haddr ha hce => ?_, fun a v haddr ha hce hv => ?_, fun a haddr ha hce hv => ?_,
    fun hout hstop => ?_, fun hout hskip => ?_⟩
  · exact ⟨_, (exec_lw_at hb ht haddr).trans (by rw [loadInto_bus hc ha hce]), advance_writeReg_effect _ hlen ht⟩
  · have hexec := exec_lw_at hb ht haddr
    rw [loadInto_hit hc ha hce hv] at hexec
    exact ⟨_, hexec, readReg_writeReg_same v hreg, rfl, instructionsWriteOnlyTheirRegisters _ _ _ hexec, fun _ => rfl,
      ⟨rfl, rfl, rfl⟩, rfl, rfl, rfl, rfl, rfl⟩
  · have hexec := exec_lw_at hb ht haddr
    rw [loadInto_miss hc ha hce hv] at hexec
    exact ⟨_, hexec, readReg_writeReg_same _ hreg, rfl, instructionsWriteOnlyTheirRegisters _ _ _ hexec, fun _ => rfl,
      ⟨rfl, rfl, rfl⟩, rfl, rfl, rfl, rfl, rfl⟩
  · rw [exec_lw hb ht, loadInto_out hout, fatalError_stop hstop]; rfl
  · rw [exec_lw hb ht, loadInto_out hout, fatalError_skip hskip]; rfl

/-! ### A store to a cell -/

/-- The Cache an SW of `v` to cell `a` leaves (42_loadstore.md R193). -/
def cacheAfterSw (a : Nat) (v : Int) (s : State) : Cache :=
  if s.ce = true then cacheStore s.cfg (binBW s.cfg a) v s.cache else s.cache

theorem exec_sw_at {b t a : Nat} {offset : Int} {s : State} (hc : legal s.cfg = true) (hb : b < s.cfg.nreg)
    (ht : t < s.cfg.nreg) (haddr : readReg b s + offset = a) (ha : a < s.cfg.memSize) :
    exec (.sw b t offset) s = .next (advance (setMem (cellWrite a (normValue s.cfg (readReg t s)) s.mem)
      (setCache (cacheAfterSw a (readReg t s) s) s))) := by
  rw [exec_sw hb ht, haddr, storeFrom_in hc ha]
  by_cases hce : s.ce = true
  · rw [if_pos hce, cacheAfterSw, if_pos hce]
  · rw [if_neg hce, cacheAfterSw, if_neg hce]; rfl

/-- Settles O31: the state an SW in range leaves, field by field, and out of range each `ON_FATAL`. -/
theorem swStoresToTheBusAndTheCache : Obligations.SwStoresToTheBusAndTheCache := by
  intro s b t offset hc hwf hb ht
  refine ⟨fun a haddr ha => ?_, fun hout hstop => ?_, fun hout hskip => ?_⟩
  · exact ⟨_, exec_sw_at hc hb ht haddr ha, cellRead_cellWrite_same a _ hwf,
      fun _ hne => cellRead_cellWrite_ne _ hne s.mem, rfl, ⟨rfl, fun _ _ => rfl⟩, ⟨rfl, rfl, rfl⟩, rfl,
      fun hce => if_pos hce, fun hce => if_neg (by simp [hce]), rfl, rfl, rfl⟩
  · rw [exec_sw hb ht, storeFrom_out hout, fatalError_stop hstop]; rfl
  · rw [exec_sw hb ht, storeFrom_out hout, fatalError_skip hskip]; rfl

/-! ### Loads after loads and stores -/

/-- A hit leaves the value it found, a miss the cell it back-filled (42_loadstore.md R192). -/
theorem cachedValue_loadInto {t a : Nat} {s : State} (hs : s.Inv) (ha : a < s.cfg.memSize) (hce : s.ce = true) :
    cachedValue (binBW s.cfg a) (loadInto t a s).cache = some (normValue s.cfg (loadedValue a s)) := by
  cases hv : cachedValue (binBW s.cfg a) s.cache with
  | none => simp [loadInto_miss hs.legalCfg ha hce hv, cachedValue_cacheStore_same, loadedValue, hce, hv]
  | some v =>
    simp [loadInto_hit hs.legalCfg ha hce hv, cachedValue_cacheLookup, loadedValue, hce, hv, cachedValue_normal hs hv]

/-- Settles O50: the first LW leaves its value in the Cache, so the second is a hit. -/
theorem loadAfterLoadHits : Obligations.LoadAfterLoadHits := by
  intro s b t offset a hs hb ht hce haddr ha
  have hexec := exec_lw_at hb ht haddr
  have hcached := cachedValue_loadInto (t := t) hs ha hce
  have hread := readReg_loadInto hs.legalCfg hs.regCount ht ha
  have hcfg := (exec_shape hexec).cfg_eq
  have hlen := (exec_shape hexec).regs_length
  have hceu := (cacheSideIsWrittenOnlyByItsInstructions _ _ _ hexec).1 nofun nofun
  generalize loadInto t a s = u at *
  refine ⟨u, hexec, by rw [hcached, hread], fun b' t' offset' hb' ht' haddr' => ?_⟩
  rw [← hcfg] at hcached hb' ht' ha
  have hexec' := exec_lw_at hb' ht' haddr'
  rw [loadInto_hit (hcfg ▸ hs.legalCfg) ha (hceu.trans hce) hcached] at hexec'
  refine ⟨_, hexec', ?_, rfl, rfl⟩
  rw [readReg_advance, readReg_writeReg_same _ (by simpa [hlen, hs.regCount, hcfg] using ht'), hread]
  simp [hcfg, normValue_idem]

/-- Settles O51: the state the SW leaves, and what an LW of the address reads there with CE at each value. -/
theorem loadAfterStoreGivesTheValueOrTheStaleEntry : Obligations.LoadAfterStoreGivesTheValueOrTheStaleEntry := by
  intro s b t offset a ceAtLoad hs hb ht haddr ha
  have hnormal := readReg_normal hs ht
  have hexec := exec_sw_at hs.legalCfg hb ht haddr ha
  rw [hnormal] at hexec
  have hcell := cellRead_cellWrite_same a (readReg t s) hs.memInv.form
  have hcached : s.ce = true →
      cachedValue (binBW s.cfg a) (cacheAfterSw a (readReg t s) s) = some (readReg t s) := fun hce => by
    rw [cacheAfterSw, if_pos hce, cachedValue_cacheStore_same, hnormal]
  refine ⟨_, hexec, hcell, hcached, fun b' t' offset' hb' ht' haddr' => ⟨_, exec_lw_at hb' ht' haddr', ?_⟩⟩
  refine Eq.trans (readReg_loadInto hs.legalCfg hs.regCount ht' ha) ?_
  cases ceAtLoad with
  | false => simpa [loadedValue, hcell] using hnormal
  | true =>
    cases hce : s.ce with
    | true => simpa [loadedValue, hcached hce] using hnormal
    | false =>
      cases hv : cachedValue (binBW s.cfg a) s.cache with
      | none => simpa [loadedValue, cacheAfterSw, hce, hv, hcell] using hnormal
      | some v => simpa [loadedValue, cacheAfterSw, hce, hv] using cachedValue_normal hs hv

/-! ### Coherence -/

theorem busRead_eq_some {c : Config} {m : Memory} {k : Line} {v : Int} :
    busRead c m k = some v ↔ busValid c k = true ∧ cellRead (bitsValue k) m = v := by
  simp [busRead]

theorem busWrite_eq_some {c : Config} {m m' : Memory} {k : Line} {v : Int} :
    busWrite c m k v = some m' ↔ busValid c k = true ∧ cellWrite (bitsValue k) (normValue c v) m = m' := by
  simp [busWrite]

/-- What a store leaves under a key was stored now, or was there. -/
theorem cachedValue_of_cacheStore {c : Config} {k k' : Line} {v w : Int} {ca : Cache}
    (h : cachedValue k' (cacheStore c k v ca) = some w) :
    (k' = k ∧ w = normValue c v) ∨ (k' ≠ k ∧ cachedValue k' ca = some w) := by
  by_cases hk : k' = k
  · subst hk
    rw [cachedValue_cacheStore_same] at h
    exact .inl ⟨rfl, (Option.some.inj h).symm⟩
  · rw [cachedValue_cacheStore_ne c v ca hk] at h
    exact .inr ⟨hk, (Option.ite_none_left_eq_some.1 h).2⟩

/-- Coherence carries over to a Cache that holds no new value, over the same cells. -/
theorem coherent.of_cachedValue {s t : State} (h : coherent s) (hcfg : t.cfg = s.cfg) (hmem : t.mem = s.mem)
    (hcache : ∀ k v, cachedValue k t.cache = some v → cachedValue k s.cache = some v) : coherent t := by
  intro k v hk hv
  rw [hmem]
  exact h k v (hcfg ▸ hk) (hcache k v hv)

/-- A back-fill stores the cell's own value (42_loadstore.md R190). -/
theorem coherent.backFill {s t : State} (h : coherent s) (hs : s.Inv) {k : Line} {cell : Int}
    (hb : busRead s.cfg s.mem k = some cell) (hcfg : t.cfg = s.cfg) (hmem : t.mem = s.mem)
    (hcache : t.cache = cacheStore s.cfg k cell s.cache) : coherent t := by
  intro k' v hk' hv
  rw [hcfg] at hk'
  rw [hcache] at hv
  rw [hmem]
  rcases cachedValue_of_cacheStore hv with ⟨rfl, rfl⟩ | ⟨-, hv⟩
  · obtain ⟨-, rfl⟩ := busRead_eq_some.1 hb
    exact cellRead_normal hs _
  · exact h k' v hk' hv

/-- A store through the Cache writes one value to the key and to the cell it spells (42_loadstore.md R193). -/
theorem coherent.storeBoth {s t : State} (h : coherent s) (hs : s.Inv) {k : Line} {v : Int}
    (hb : busWrite s.cfg s.mem k v = some t.mem) (hcfg : t.cfg = s.cfg)
    (hcache : t.cache = cacheStore s.cfg k v s.cache) : coherent t := by
  intro k' w hk' hw
  rw [hcfg] at hk'
  rw [hcache] at hw
  obtain ⟨hk, hmem⟩ := busWrite_eq_some.1 hb
  rw [← hmem]
  rcases cachedValue_of_cacheStore hw with ⟨rfl, rfl⟩ | ⟨hne, hw⟩
  · exact (cellRead_cellWrite_same _ _ hs.memInv.form).symm
  · rw [cellRead_cellWrite_ne _ fun hv => hne (bitsValue_injective_of_valid hk hk' hv)]
    exact h k' w hk' hw

/-- An instruction keeps coherence, an SW with CE false apart (42_loadstore.md R195). -/
theorem ExecShape.coherent {s t : State} {i : Instr} (h : ExecShape s i t) (hs : s.Inv) (hco : coherent s)
    (hsw : ∀ b r offset, i = .sw b r offset → s.ce = true) : coherent t := by
  cases h with
  | loadedHit _ _ _ k =>
    exact hco.of_cachedValue rfl rfl fun k' v hv => (cachedValue_cacheLookup s.cfg k k' s.cache).symm.trans hv
  | loadedMiss _ _ _ _ _ _ hb => exact hco.backFill hs hb rfl rfl rfl
  | storedBoth _ _ _ _ _ _ hb => exact hco.storeBoth hs hb rfl rfl
  | storedBus _ _ _ _ _ _ _ hce => cases hce.symm.trans (hsw _ _ _ rfl)
  | cacheMode mode =>
    cases mode with
    | disable | enable => exact hco
    | flush => exact hco.of_cachedValue rfl rfl fun k v hv => by cases (cachedValue_cacheFlush s.cfg k).symm.trans hv
  | skipped | addressSkipped | addressFault | pcFault | wrote | branched | halted | loadedBus => exact hco

/-- While the Cache is coherent a load reads the cell, whatever CE is (70_reset_and_hazards.md R275). -/
theorem loadedValue_of_coherent {s : State} (hc : legal s.cfg = true) (hco : coherent s) {a : Nat}
    (ha : a < s.cfg.memSize) : loadedValue a s = cellRead a s.mem := by
  have hcached : (cachedValue (binBW s.cfg a) s.cache).getD (cellRead a s.mem) = cellRead a s.mem := by
    cases hv : cachedValue (binBW s.cfg a) s.cache with
    | none => rfl
    | some v =>
      have hcell := hco _ v (busValid_binBW hc ha) hv
      rwa [bitsValue_binBW (ha.trans_le (memSize_le_of_legal hc))] at hcell
  rw [loadedValue, hcached, ite_self]

/-- Settles O60: coherence by the three ways a step answers a next state, a decoded instruction's by its shape; then the
value of a load. -/
theorem coherentCacheIsTransparent : Obligations.CoherentCacheIsTransparent := by
  refine ⟨fun s t hs hco h hsw => ?_, fun s b t offset a hs hco hb ht haddr ha => ?_⟩
  · obtain ⟨-, ⟨-, -, rfl⟩ | ⟨r, -, rfl⟩ | ⟨line, i, hf, -, -, hexec⟩⟩ := step_cases h
    · exact hco
    · exact hco
    · exact (exec_shape hexec).coherent hs hco fun b r offset hi => hsw b r offset (hi ▸ hf)
  · refine ⟨_, exec_lw_at hb ht haddr, ?_⟩
    rw [readReg_loadInto hs.legalCfg hs.regCount ht ha, loadedValue_of_coherent hs.legalCfg hco ha,
      cellRead_normal hs]

end Sys2Proof.Machine

/-! CACHE and HALT (43_system.md): what each CACHE mode leaves (R200), HALT (R202), and the load after a flush (R201). -/

namespace Sys2Proof.Machine

/-- Under LRU a flush lists the placeholders in the recency order too (20_memory.md R95). -/
theorem cacheFlush_recency_lru {c : Config} (h : c.evict = .lru) : (cacheFlush c).recency = placeholderKeys c.cap := by
  simp [cacheFlush, flushedCache, h]

/-- Settles O32: each mode is one write to the state before the base advance; the flush's is the placeholders. -/
theorem cacheModesActOneAtATime : Obligations.CacheModesActOneAtATime := fun s =>
  ⟨exec_cache .disable s, exec_cache .enable s, _, exec_cache .flush s, rfl, cacheFlush_recency_lru, rfl⟩

/-- Settles O33: HALT sets the run status alone. -/
theorem haltEndsTheRun : Obligations.HaltEndsTheRun := exec_halt

/-- Settles O52: the flushed Cache holds no key, so the LW is the miss of `lwLoadsThroughTheCacheOrTheBus`, and the cell
it reads is its own normal form. -/
theorem flushMakesTheNextLoadMiss : Obligations.FlushMakesTheNextLoadMiss := by
  intro s hs hce
  have habsent := cachedValue_cacheFlush s.cfg
  refine ⟨_, exec_cache .flush s, habsent, fun b t offset a hb ht haddr ha => ?_⟩
  obtain ⟨-, -, hmiss, -⟩ :=
    lwLoadsThroughTheCacheOrTheBus (advance (applyCacheMode .flush s)) b t offset hs.legalCfg hs.regCount hb ht
  obtain ⟨w, hexec, hread, -, -, -, -, -, -, hhits, hmisses, -⟩ := hmiss a haddr ha hce (habsent _)
  exact ⟨w, hexec, hread.trans (cellRead_normal hs a), hmisses, hhits⟩

end Sys2Proof.Machine

/-! Errors (60_exceptions.md): what a line that does not decode does (R212), what a fatal-tier error leaves (R215), and
the reasons for which a run stops (R220). -/

namespace Sys2Proof.Machine

theorem fetch_of_decode_error {s : State} {line : Line} {r : SkipReason} (hrun : s.rs = .running)
    (hline : s.program[s.pc]? = some line) (hdecode : decode s.cfg.nreg line = .error r) : fetch s = .skip r := by
  simp [fetch, hrun, hline, hdecode]

/-- Settles O36: fetch finds the skip, on which the step is `skipLine` and the trace its one event. -/
theorem undecodableLineIsSkipped : Obligations.UndecodableLineIsSkipped := by
  intro s line r hrun hline hdecode
  have hf := fetch_of_decode_error hrun hline hdecode
  constructor
  · rw [step, hf]
    rfl
  · rw [stepEvents, hf]

/-- A fatal-tier error, skipped or not, writes at most the pc and RS (60_exceptions.md R215). -/
theorem fatalError_frame (e : FatalError) (s : State) : { fatalError e s with pc := s.pc, rs := s.rs } = s := by
  rcases fatalError_cases e s with ⟨h, -⟩ | ⟨h, -⟩ <;> rw [h] <;> rfl

/-- Settles O42: an instruction that raises does what `fatalError` does. -/
theorem fatalErrorWritesNothing : Obligations.FatalErrorWritesNothing := by
  intro i s hw hraise
  obtain ⟨e, hexec, -⟩ := exec_of_raisesFatal hw hraise
  exact ⟨fatalError e s, hexec, fatalError_frame e s⟩

/-- An instruction that is counted ends with Continue, so the run goes on (10_state.md R51). -/
theorem ExecShape.rs_of_counted {s t : State} {i : Instr} (h : ExecShape s i t) (hc : t.statInstr ≠ s.statInstr) :
    t.rs = s.rs := by
  cases h with
  | addressFault | pcFault | halted => exact absurd rfl hc
  | cacheMode mode => simp
  | skipped | addressSkipped | wrote | branched | loadedBus | loadedHit | loadedMiss | storedBus | storedBoth => rfl

/-- A decoded instruction that changes RS is HALT or raises: any other is counted (60_exceptions.md R220). -/
theorem halt_or_raisesFatal_of_rs_ne {s t : State} {i : Instr} (hc : legal s.cfg = true) (hw : i.wf s.cfg.nreg = true)
    (h : exec i s = .next t) (hrs : t.rs ≠ s.rs) : i = .halt ∨ raisesFatal i s := by
  by_contra! hn
  obtain ⟨hhalt, hraise⟩ := hn
  obtain ⟨u, hu, -, hcount⟩ := exec_continues hc hw hhalt hraise
  cases h.symm.trans hu
  exact hrs ((exec_shape h).rs_of_counted (by omega))

/-- A fatal-tier error that changes RS was not skipped, and RS is Faulted (60_exceptions.md R216, R217). -/
theorem fatalError_stops {e : FatalError} {s : State} (h : (fatalError e s).rs ≠ s.rs) :
    (fatalError e s).rs = .faulted e ∧ ∀ p a, e = .invalidAddress p a → s.cfg.onFatal = .stop := by
  rcases fatalError_cases e s with ⟨he, -⟩ | ⟨he, hstop⟩
  · exact absurd (by rw [he, skipLine_rs]) h
  · exact ⟨by rw [he, setRs_rs], hstop⟩

/-- Settles O43, by the three ways a step answers a next state; a decoded instruction that stops the run is HALT or
raises. -/
theorem runStopsOnlyForThreeReasons : Obligations.RunStopsOnlyForThreeReasons := by
  intro s t hc h hstopped
  obtain ⟨hrun, ⟨hf, -, rfl⟩ | ⟨r, -, rfl⟩ | ⟨line, i, hf, -, hdecode, hexec⟩⟩ := step_cases h
  · exact .inl ⟨hf, endRun_rs s⟩
  · exact absurd hrun hstopped
  · have hw := decode_wf hdecode
    rw [← hrun] at hstopped
    rcases halt_or_raisesFatal_of_rs_ne hc hw hexec hstopped with rfl | hraise
    · cases hexec
      exact .inr (.inl ⟨hf, haltRun_rs s⟩)
    · obtain ⟨e, he, hmem⟩ := exec_of_raisesFatal hw hraise
      cases hexec.symm.trans he
      obtain ⟨hfaulted, hstop⟩ := fatalError_stops hstopped
      refine .inr (.inr ⟨i, hf, hraise, fun haccess => ?_, e, hfaulted⟩)
      obtain ⟨p, a, haddr⟩ := hmem.1 haccess
      exact hstop p a haddr

end Sys2Proof.Machine

/-! Construction and the host between runs (70_reset_and_hazards.md): what construction accepts (R260) and leaves
(R250), the preload (R263), and the host's operations (R264). -/

namespace Sys2Proof.Machine

/-! ### Construction -/

theorem legalXlen_iff {x : Xlen} : legalXlen x = true ↔ ∀ w, x = .finite w → 2 ≤ w := by
  cases x <;> simp [legalXlen]

/-- The checks of construction one by one (70_reset_and_hazards.md R260). -/
theorem legal_iff {c : Config} : legal c = true ↔
    1 ≤ c.nreg ∧ 1 ≤ c.cap ∧ 1 ≤ c.memSize ∧ 1 ≤ addressWidth c ∧ c.memSize ≤ 2 ^ addressWidth c ∧ 1 ≤ c.pcStep ∧
      ∀ w, c.xlen = .finite w → 2 ≤ w := by
  simp only [legal, Bool.and_eq_true, decide_eq_true_eq, legalXlen_iff, and_assoc]

theorem construct_some {c : Config} (h : legal c = true) : construct c = some (State.constructed c) := by
  simp [construct, h]

/-- Settles O17: each failure is one of the checks of `legal_iff` refuted. -/
theorem constructionRefusesIllegalArguments : Obligations.ConstructionRefusesIllegalArguments := by
  intro c
  refine ⟨fun h => construct_some (legal_iff.2 h), fun h => construct_none (Bool.eq_false_iff.2 fun hlegal => ?_)⟩
  obtain ⟨hnreg, hcap, hmem, hwidth, hfit, hstep, hxlen⟩ := legal_iff.1 hlegal
  rcases h with h | h | h | h | h | h | ⟨w, hx, hw⟩
  case inr.inr.inr.inr.inr.inr => exact absurd (hxlen w hx) (Nat.not_le.2 hw)
  all_goals omega

theorem readReg_constructed (k : Nat) (c : Config) : readReg k (State.constructed c) = 0 := by
  simp [readReg, State.constructed]

/-- Settles O18: the fields of `State.constructed`; the Cache is the flushed one. -/
theorem constructionLeavesTheResetState : Obligations.ConstructionLeavesTheResetState :=
  ⟨rfl, fun c => ⟨List.length_replicate, fun k => readReg_constructed k c, rfl, rfl, rfl, rfl, rfl, rfl, rfl,
    cacheFlush_recency_lru, fun _ => rfl, rfl⟩⟩

/-- The cleared bus lists no cell, so it has the bus's invariant (20_memory.md R75). -/
theorem busClear_inv (c : Config) : Memory.Inv c busClear where
  form := busClear_wf
  range := by simp [busClear]
  normal := by simp [busClear]

/-- Zero registers, the cleared bus and the flushed Cache (70_reset_and_hazards.md R250). -/
theorem constructed_inv {c : Config} (h : legal c = true) : (State.constructed c).Inv where
  legalCfg := h
  regCount := List.length_replicate
  regNormal v hv := by
    rw [List.eq_of_mem_replicate hv]
    exact normValue_bit h le_rfl Int.one_nonneg
  memInv := busClear_inv c
  cacheInv := flushedCache_inv c
  status := trivial

/-- Settles O56: State.reset is a legal construction. -/
theorem constructionEstablishesTheInvariant : Obligations.ConstructionEstablishesTheInvariant :=
  ⟨fun _ => constructed_inv, constructed_inv (by decide)⟩

/-! ### The preload -/

/-- The split is at the first comma, which no character of the address token is. -/
theorem splitFirstComma_append : ∀ {address : Line} (value : Line), (∀ c ∈ address, c ≠ ',') →
    splitFirstComma (address ++ ',' :: value) = some (address, value)
  | [], _, _ => rfl
  | c :: address, value, h => by
    obtain ⟨hc, haddress⟩ := List.forall_mem_cons.1 h
    simp [splitFirstComma, hc, splitFirstComma_append value haddress]

theorem splitFirstComma_of_noComma : ∀ {l : Line}, (∀ c ∈ l, c ≠ ',') → splitFirstComma l = none
  | [], _ => rfl
  | c :: l, h => by
    obtain ⟨hc, hl⟩ := List.forall_mem_cons.1 h
    simp [splitFirstComma, hc, splitFirstComma_of_noComma hl]

theorem parseDataLine_wellFormed {c : Config} {address value : Line} {v : Int} (hsep : ∀ ch ∈ address, ch ≠ ',')
    (hv : parseInt (trim value) = .ok v) (ha : busValid c (trim address) = true) :
    parseDataLine c (address ++ ',' :: value) = some (trim address, v) := by
  simp [parseDataLine, splitFirstComma_append value hsep, hv, ha]

theorem parseDataLine_malformed {c : Config} {address value : Line} (hsep : ∀ ch ∈ address, ch ≠ ',')
    (h : (∃ r, parseInt (trim value) = .error r) ∨ busValid c (trim address) = false) :
    parseDataLine c (address ++ ',' :: value) = none := by
  simp only [parseDataLine, splitFirstComma_append value hsep]
  cases hv : parseInt (trim value) with
  | error r => rfl
  | ok v =>
    have ha : busValid c (trim address) = false := h.resolve_left (by simp [hv])
    simp [ha]

theorem parseDataLine_of_noComma {c : Config} {l : Line} (h : ∀ ch ∈ l, ch ≠ ',') : parseDataLine c l = none := by
  simp [parseDataLine, splitFirstComma_of_noComma h]

theorem preloadLine_of_parse_none {s : State} {l : Line} (h : parseDataLine s.cfg l = none) : preloadLine s l = s := by
  simp [preloadLine, h]

theorem preloadLine_of_parse_some {s : State} {l k : Line} {v : Int} {m : Memory}
    (h : parseDataLine s.cfg l = some (k, v)) (hw : busWrite s.cfg s.mem k v = some m) :
    preloadLine s l = setMem m s := by
  simp [preloadLine, h, hw]

/-- A data line does nothing, or one write through the bus's port (70_reset_and_hazards.md R263). -/
theorem preloadLine_cases (s : State) (l : Line) :
    preloadLine s l = s ∨ ∃ k v m, busWrite s.cfg s.mem k v = some m ∧ preloadLine s l = setMem m s := by
  cases hp : parseDataLine s.cfg l with
  | none => exact .inl (preloadLine_of_parse_none hp)
  | some p =>
    obtain ⟨k, v⟩ := p
    cases hw : busWrite s.cfg s.mem k v with
    | none => exact .inl (by simp [preloadLine, hp, hw])
    | some m => exact .inr ⟨k, v, m, hw, preloadLine_of_parse_some hp hw⟩

/-- Settles O55: the frame by `preloadLine_cases`, the three kinds of line by what they parse to. -/
theorem preloadWritesTheBusOnly : Obligations.PreloadWritesTheBusOnly := by
  refine ⟨fun _ => rfl, fun _ _ _ => rfl, fun s l => ?_, fun s address value v m hsep hv hw => ?_,
    fun s address value hsep h => ?_, fun s l h => ?_⟩
  · rcases preloadLine_cases s l with h | ⟨k, v, m, -, h⟩
    · rw [h]
    · rw [h, setMem]
  · exact preloadLine_of_parse_some (parseDataLine_wellFormed hsep hv (busWrite_eq_some.1 hw).1) hw
  · exact preloadLine_of_parse_none (parseDataLine_malformed hsep h)
  · exact preloadLine_of_parse_none (parseDataLine_of_noComma h)

/-! ### The host's operations -/

theorem hostAct_of_running {s : State} (op : HostOp) (h : s.rs = .running) : hostAct op s = none := by
  simp [hostAct, h]

/-- Settles O53, by whether a run is in progress. -/
theorem hostActsOnlyBetweenRuns : Obligations.HostActsOnlyBetweenRuns := by
  intro op s
  by_cases h : s.rs = .running
  · simp [hostAct_of_running op h, h]
  · simp [hostAct_of_not_running op h, h]

/-- An accepted operation is the one applied. -/
theorem applyHostOp_of_hostAct {op : HostOp} {s : State} {p : State × HostReply} (h : hostAct op s = some p) :
    applyHostOp op s = p := by
  have hrs : s.rs ≠ .running := (hostActsOnlyBetweenRuns op s).1 (Option.isSome_of_eq_some h)
  exact Option.some.inj ((hostAct_of_not_running op hrs).symm.trans h)

/-- No clause of the invariant but the bus's speaks of the cells. -/
theorem setMem_inv {s : State} (hs : s.Inv) {m : Memory} (hm : Memory.Inv s.cfg m) : (setMem m s).Inv :=
  { hs with memInv := hm }

/-- No clause of the invariant but the Cache's speaks of the Cache. -/
theorem setCache_inv {s : State} (hs : s.Inv) {ca : Cache} (hca : Cache.Inv s.cfg ca) : (setCache ca s).Inv :=
  { hs with cacheInv := hca }

theorem startRun_inv {s : State} (hs : s.Inv) (p : List Line) : (startRun p s).Inv :=
  hs.of_sameData rfl rfl rfl rfl (statusFits_of_running (startRun_rs p s))

theorem preloadLine_inv {s : State} (hs : s.Inv) (l : Line) : (preloadLine s l).Inv := by
  rcases preloadLine_cases s l with h | ⟨k, v, m, hw, h⟩ <;> rw [h]
  · exact hs
  · exact setMem_inv hs (busWrite_inv hw hs.memInv)

theorem preload_inv {s : State} (hs : s.Inv) (lines : List Line) : (preload lines s).Inv := by
  induction lines generalizing s with
  | nil => exact hs
  | cons l lines ih => exact ih (preloadLine_inv hs l)

/-- Each port keeps the invariant of what it writes. -/
theorem applyHostOp_inv {s : State} (hs : s.Inv) (op : HostOp) : (applyHostOp op s).1.Inv := by
  cases op with
  | preload lines => exact preload_inv hs lines
  | busRead address =>
    simp only [applyHostOp]
    split <;> exact hs
  | busWrite address v =>
    simp only [applyHostOp]
    split
    · exact hs
    · next m hw => exact setMem_inv hs (busWrite_inv hw hs.memInv)
  | busClear => exact setMem_inv hs (busClear_inv s.cfg)
  | cacheLookup k =>
    have hca := cacheLookup_inv k hs.cacheInv
    simp only [applyHostOp]
    split <;> next hl => exact setCache_inv hs (by simpa [hl] using hca)
  | cacheStore k v => exact setCache_inv hs (cacheStore_inv k v (cap_pos_of_legal hs.legalCfg) hs.cacheInv)
  | cacheFlush => exact setCache_inv hs (flushedCache_inv s.cfg)
  | run p => exact startRun_inv hs p

/-- Settles O58: an accepted operation is the one applied, and each keeps the invariant. -/
theorem hostKeepsTheInvariant : Obligations.HostKeepsTheInvariant := by
  intro op s t r hs h
  have ht := applyHostOp_inv hs op
  rwa [applyHostOp_of_hostAct h] at ht

end Sys2Proof.Machine

/-! The model's own choices (assumption log 5, 7, 13): no step unless running, an instruction of a missing register, and
the events of LW and SW. -/

namespace Sys2Proof.Machine

/-- Settles O34: the term is not well-formed, and such a term does `skipLine`. -/
theorem instructionOfAMissingRegisterIsSkipped : Obligations.InstructionOfAMissingRegisterIsSkipped :=
  fun _ _ h => exec_missing h

theorem fetch_of_not_running {s : State} (h : s.rs ≠ .running) : fetch s = .notRunning := by
  rcases fetch_cases s with ⟨hf, -⟩ | ⟨hrun, -⟩ | ⟨-, hrun, -⟩
  · exact hf
  · exact absurd hrun h
  · exact absurd hrun h

/-- Settles O38: a state that is not running fetches nothing. -/
theorem noStepUnlessRunning : Obligations.NoStepUnlessRunning := by
  intro s h
  rw [step, fetch_of_not_running h]

/-! ### The events of LW and SW (60_exceptions.md R237) -/

theorem stepEvents_of_fetch_run {s : State} {i : Instr} (h : fetch s = .run i) : stepEvents s = instrEvents i s := by
  rw [stepEvents, h]

theorem storeEvents_of_none {c : Config} {k : Line} {ca : Cache} (h : storeVictim c (.addr k) ca = none) :
    storeEvents c k ca = [] := by
  rw [storeEvents, h]

theorem storeEvents_of_some {c : Config} {k : Line} {w : CacheKey} {ca : Cache}
    (h : storeVictim c (.addr k) ca = some w) : storeEvents c k ca = [.evict w] := by
  rw [storeEvents, h]

section InRange

variable {a : Nat} {s : State} (hc : legal s.cfg = true) (h : a < s.cfg.memSize) (hce : s.ce = true)
include hc h hce

/-- The events of the load that `memRead_hit` gives. -/
theorem loadEvents_hit {v : Int} (hv : cachedValue (binBW s.cfg a) s.cache = some v) :
    loadEvents a s = [.hit (binBW s.cfg a)] := by
  simp [loadEvents, renderAddr, h, busRead_binBW hc h, hce, hv]

/-- The events of the load that `memRead_miss` gives: the miss, then those of its back-fill. -/
theorem loadEvents_miss (hv : cachedValue (binBW s.cfg a) s.cache = none) :
    loadEvents a s = .miss (binBW s.cfg a) :: storeEvents s.cfg (binBW s.cfg a) s.cache := by
  simp [loadEvents, renderAddr, h, busRead_binBW hc h, hce, hv]

/-- The events of the store that `memWrite_in` gives: those of its Cache store. -/
theorem storeToEvents_in : storeToEvents a s = storeEvents s.cfg (binBW s.cfg a) s.cache := by
  simp [storeToEvents, renderAddr, h, busValid_binBW hc h, hce]

end InRange

/-- Settles O49: the events are those of the load, a hit or a miss with its back-fill, or of the store, at the address
`a`; a Cache store's are its eviction. -/
theorem traceShowsHitsMissesAndEvictions : Obligations.TraceShowsHitsMissesAndEvictions := by
  intro s b t offset a hc hce haddr ha
  constructor
  · intro hf
    have hev : stepEvents s = loadEvents a s :=
      (stepEvents_of_fetch_run hf).trans (congrArg (loadEvents · s) haddr)
    refine ⟨fun v hv => ?_, fun hv hw => ?_, fun w hv hw => ?_⟩
    · rw [hev, loadEvents_hit hc ha hce hv]
    · rw [hev, loadEvents_miss hc ha hce hv, storeEvents_of_none hw]
    · rw [hev, loadEvents_miss hc ha hce hv, storeEvents_of_some hw]
  · intro hf
    have hev : stepEvents s = storeEvents s.cfg (binBW s.cfg a) s.cache :=
      ((stepEvents_of_fetch_run hf).trans (congrArg (storeToEvents · s) haddr)).trans (storeToEvents_in hc ha hce)
    exact ⟨fun hw => hev.trans (storeEvents_of_none hw), fun w hw => hev.trans (storeEvents_of_some hw)⟩

end Sys2Proof.Machine
